-- ==== Sys2Proof/Word.lean ====
section
/-! DEFINITION. The word types of the QTPY Wavetable Mixer block: 32-bit command and event words (R80, R90),
16-bit registers (R30) and signed 16-bit samples (R12, R60). -/

namespace Sys2Proof

/-- A command word or an event word: 32 bits, bit 0 the least significant (R11, R80, R90). -/
abbrev Word := BitVec 32

/-- A 16-bit register of the block, an unsigned value (R30). -/
abbrev Reg16 := BitVec 16

/-- One sample of a memory space, a two's-complement 16-bit value (R12, R61). -/
abbrev Sample := BitVec 16

/-- A 7-bit MIDI note number as NOTE_STATE and the event words hold it (R33, R90). -/
abbrev Note := BitVec 7

end Sys2Proof
end

