-- ==== Sys2Proof/Config.lean ====
section
/-! DEFINITION. The implementation parameters (R8), the shape of a halted block's registers, and the values the
spec leaves open: opaque constants with no body, so that no proof can rest on a value of theirs (log 4, log 5, log 7). -/

namespace Sys2Proof

/-- The implementation parameters of R8, fixed between two resets.
`waves` is the waveform table, a list of rows of samples (R41). PEAK, NOTE_MAX and VEL_MAX are fixed by R8 and
stand in Machine/Defaults.lean, with the defaults of the others. -/
structure Config where
  /-- ADC_MAX, the R of the mixer's rules. -/
  adcMax : Nat
  alphaNum : Nat
  alphaDen : Nat
  /-- NUM_WAVES, the N of the mixer's rules. -/
  numWaves : Nat
  /-- SAMPLE_SIZE, the S of the mixer's rules. -/
  sampleSize : Nat
  /-- WAVES, N rows of S samples. -/
  waves : List (List Sample)
  /-- ENV_LEN, the E of the envelope's rules. -/
  envLen : Nat
  atkV0 : Nat
  atkV127 : Nat
  relV0 : Nat
  relV127 : Nat
  floorNum : Nat
  floorDen : Nat
  holdRefVelocity : Nat
  deriving DecidableEq, Repr

/-- NOTE_STATE: Idle, or Sounding(n) with n in [0, 127] (R33, R150).
The register's SOUNDING and NOTE fields are `isSounding` and `noteNumber` of Machine/Flags.lean. -/
inductive NoteState where
  | idle
  | sounding (n : Note)
  deriving DecidableEq, Repr, Inhabited

/-- The registers that are unspecified when a configuration error halts the block (R181). -/
structure HaltedRegisters where
  knobA : Reg16
  knobB : Reg16
  noteState : NoteState
  holdIndex : Reg16
  diagIndex : Reg16
  diagMix : Reg16
  cmdErr : Bool
  deriving DecidableEq, Repr, Inhabited

/-- FREE VALUE (log 5): what the registers of the block hold after its k-th halt (R181, 'unspecified'). -/
opaque Config.freeHaltedRegisters : Nat → HaltedRegisters

/-- FREE VALUE (log 5): what LIVE[i] holds after the k-th halt (R181, 'unspecified'). -/
opaque Config.freeHaltedLive : Nat → Nat → Sample

/-- FREE VALUE (log 5): what ENV[i] holds after the k-th halt (R181, 'unspecified'). -/
opaque Config.freeHaltedEnv : Nat → Nat → Sample

/-- FREE VALUE (log 4): whether the j-th action of the k-th abandoned command, a write, took effect (R206,
'unspecified'). -/
opaque Config.freeAbandonedWrite : Nat → Nat → Bool

/-- FREE VALUE (log 4): how many of its events the k-th abandoned command had emitted, all of them when the number is
larger (R206, 'either emitted whole or not at all'). -/
opaque Config.freeAbandonedEvents : Nat → Nat

/-- FREE VALUE (log 7): NUM_WAVES of the platform's configuration, counted from its least legal value 2 (R9, R207). -/
opaque Config.freeNumWaves : Fin 65534

/-- FREE VALUE (log 7): SAMPLE_SIZE of the platform's configuration, counted from its least legal value 1 (R9, R207). -/
opaque Config.freeSampleSize : Fin 65535

/-- FREE VALUE (log 7): WAVES[k][i] of the platform's configuration (R9). -/
opaque Config.freeWave : Nat → Nat → Sample

end Sys2Proof
end

