-- ==== Sys2Proof/Machine/Defaults.lean ====
section
/-! DEFINITION. The fixed parameters and the defaults of R8, and the configuration State.reset starts from. -/

namespace Sys2Proof.Machine

/-- PEAK, the peak envelope amplitude, fixed (R8). -/
def peak : Int := 32767

/-- NOTE_MAX, the top MIDI note number, fixed (R8). -/
def noteMax : Nat := 127

/-- VEL_MAX, the top velocity, fixed (R8). -/
def velMax : Nat := 127

/-- The largest RAW operand, the top of its 16-bit field (R83). -/
def rawMax : Nat := 65535

/-- Every default of R8, with NUM_WAVES, SAMPLE_SIZE and WAVES as arguments (R9). -/
def defaults (numWaves sampleSize : Nat) (waves : List (List Sample)) : Config :=
  { adcMax := 65535, alphaNum := 4, alphaDen := 5,
    numWaves := numWaves, sampleSize := sampleSize, waves := waves,
    envLen := 200, atkV0 := 99, atkV127 := 50, relV0 := 50, relV127 := 99,
    floorNum := 1, floorDen := 10, holdRefVelocity := 0 }

/-- The table of n rows of s samples with WAVES[k][i] = f k i. -/
def tabulate (n s : Nat) (f : Nat → Nat → Sample) : List (List Sample) :=
  (List.range n).map fun k => (List.range s).map (f k)

/-- The configuration of `State.reset`: the defaults of R8, and free values within the legal range for the three
parameters the spec gives no value (R9, log 7). -/
def platform : Config :=
  defaults (2 + Config.freeNumWaves.val) (1 + Config.freeSampleSize.val)
    (tabulate (2 + Config.freeNumWaves.val) (1 + Config.freeSampleSize.val) Config.freeWave)

end Sys2Proof.Machine
end

