-- ==== Sys2Proof/Syntax.lean ====
section
/-! DEFINITION. The commands of the block as syntax: one constructor per row of the opcode map (R82), and the
names of the map's rows and of the reasons a word is illegal (R85). -/

namespace Sys2Proof

/-- A command of the block with its operands as integers (R82, R83).
The operand ranges are checked by `Instr.wf`; the decoder yields only well-formed commands. -/
inductive Instr where
  /-- NOTEON NOTE, VEL: MIDI Note On (R151). -/
  | noteon (note vel : Nat)
  /-- NOTEOFF NOTE: MIDI Note Off (R154). -/
  | noteoff (note : Nat)
  /-- KNOBA RAW: smooth knob A (R101). -/
  | knoba (raw : Nat)
  /-- KNOBB RAW: smooth knob B (R102). -/
  | knobb (raw : Nat)
  /-- MIX: recompute the Live Waveform Buffer (R111). -/
  | mix
  deriving DecidableEq, Repr

/-- The mnemonics of the opcode map (R82). -/
inductive Op where
  | noteon | noteoff | knoba | knobb | mix
  deriving DecidableEq, Repr

/-- One row of the opcode map: a word w selects the row when `w & mask = pattern` (R82). -/
structure OpRow where
  op : Op
  mask : Word
  pattern : Word
  deriving DecidableEq, Repr

/-- Why a word is ILLEGAL (R85). Both reasons have the one outcome of R182. -/
inductive Illegal where
  /-- w[31:28] is 0x0 or 0x6..0xF. -/
  | reservedOpcode
  /-- The opcode is a command's, and a bit that R81 marks 'must be 0' is 1. -/
  | reservedBits
  deriving DecidableEq, Repr

end Sys2Proof
end

