-- ==== Sys2Proof/WellFormed.lean ====
section
/-! DEFINITION. Which commands are well formed: every operand in its field's range (R83, R92). -/

namespace Sys2Proof

/-- Every operand of the command is in the range of its field (R83).
An operand outside it is an assembly error, not a truncated field (R92). -/
def Instr.wf : Instr → Bool
  | .noteon note vel => decide (note ≤ Machine.noteMax) && decide (vel ≤ Machine.velMax)
  | .noteoff note => decide (note ≤ Machine.noteMax)
  | .knoba raw => decide (raw ≤ Machine.rawMax)
  | .knobb raw => decide (raw ≤ Machine.rawMax)
  | .mix => true

end Sys2Proof
end

