-- ==== Sys2Proof/Decode.lean ====
section
/-! DEFINITION. The command encoding (R80 to R86): the opcode map, the decoder, total on every 32-bit word, and the
encoder (R92). -/

namespace Sys2Proof

/-- The opcode map, one row per command (R82). -/
def opcodeMap : List OpRow :=
  [ ⟨.noteon, 0xFFFF8080#32, 0x10000000#32⟩,
    ⟨.noteoff, 0xFFFF80FF#32, 0x20000000#32⟩,
    ⟨.knoba, 0xFFFF0000#32, 0x30000000#32⟩,
    ⟨.knobb, 0xFFFF0000#32, 0x40000000#32⟩,
    ⟨.mix, 0xFFFFFFFF#32, 0x50000000#32⟩ ]

/-- `(w & mask) == match` (R82). -/
def OpRow.selects (r : OpRow) (w : Word) : Bool := (w &&& r.mask) == r.pattern

/-- OP = w[31:28] (R81). -/
def opField (w : Word) : Nat := (w.extractLsb' 28 4).toNat

/-- NOTE = zext_7(w[14:8]) (R83). -/
def noteField (w : Word) : Nat := (w.extractLsb' 8 7).toNat

/-- VEL = zext_7(w[6:0]) (R83). -/
def velField (w : Word) : Nat := (w.extractLsb' 0 7).toNat

/-- RAW = zext_16(w[15:0]) (R83). -/
def rawField (w : Word) : Nat := (w.extractLsb' 0 16).toNat

/-- The command of a row with the operands the word carries (R81, R83). -/
def assembleOperands (op : Op) (w : Word) : Instr :=
  match op with
  | .noteon => .noteon (noteField w) (velField w)
  | .noteoff => .noteoff (noteField w)
  | .knoba => .knoba (rawField w)
  | .knobb => .knobb (rawField w)
  | .mix => .mix

/-- Which of R85's two grounds makes a word that selects no row illegal. -/
def illegalReason (w : Word) : Illegal :=
  if 1 ≤ opField w ∧ opField w ≤ 5 then .reservedBits else .reservedOpcode

/-- The decoder (R84): the first row of the opcode map that the word selects, else ILLEGAL. -/
def decode (w : Word) : Except Illegal Instr :=
  match opcodeMap.find? (fun r => r.selects w) with
  | some r => .ok (assembleOperands r.op w)
  | none => .error (illegalReason w)

/-- The encoder: the word of a command, from the syntax table of R92. -/
def encode : Instr → Word
  | .noteon note vel => 0x10000000#32 ||| (BitVec.ofNat 32 note <<< 8) ||| BitVec.ofNat 32 vel
  | .noteoff note => 0x20000000#32 ||| (BitVec.ofNat 32 note <<< 8)
  | .knoba raw => 0x30000000#32 ||| BitVec.ofNat 32 raw
  | .knobb raw => 0x40000000#32 ||| BitVec.ofNat 32 raw
  | .mix => 0x50000000#32

/-- The command word whose low `nbits` bits are those of w and whose other bits are 0.
Words are delivered whole on the command port, so there is no byte order to choose (R80). -/
def tableWord (nbits w : Nat) : Word := BitVec.ofNat 32 (w % 2 ^ nbits)

/-- What the decoder reads from an instruction whose bits are w, numbered as spec/opcode_table.json numbers them. -/
def decodeTableWord (nbits w : Nat) : Option Instr :=
  match decode (tableWord nbits w) with
  | .ok i => some i
  | .error _ => none

end Sys2Proof
end

