-- ==== Sys2Proof/Machine/Arith.lean ====
section
/-! DEFINITION. The arithmetic primitives of R10 to R13: exact integers, narrowed only at a write. -/

namespace Sys2Proof.Machine

/-- floor_div(a, b): the quotient rounded toward −∞ (R13). -/
def floorDiv (a b : Int) : Int := Int.fdiv a b

/-- trunc_div(a, b): the quotient rounded toward zero (R13). -/
def truncDiv (a b : Int) : Int := Int.tdiv a b

/-- round_half_even(a / b): the nearest integer, a tie to the even one (R13). -/
def roundHalfEven (a b : Int) : Int :=
  let q := floorDiv a b
  let r := a - q * b
  if 2 * r < b then q
  else if b < 2 * r then q + 1
  else if q % 2 = 0 then q else q + 1

/-- clamp(x, lo, hi) (R13). -/
def clamp (x lo hi : Int) : Int := if x < lo then lo else if hi < x then hi else x

/-- The unsigned value of a register (R12, zext_16). -/
def regValue (r : Reg16) : Int := (r.toNat : Int)

/-- The low 16 bits of an integer, the value a 16-bit register or sample stores (R10, R61). -/
def narrow16 (z : Int) : BitVec 16 := BitVec.ofInt 16 z

end Sys2Proof.Machine
end

