-- ==== Sys2Proof/Machine/Envelope.lean ====
section
/-! DEFINITION. The Envelope Generator's functions: segment lengths and sample values (R131 to R140). -/

namespace Sys2Proof.Machine

/-- round_half_even of the linear range map of a velocity: out0 at velocity 0, out127 at velocity 127 (R131, R132). -/
def mapVelocity (out0 out127 : Nat) (v : Nat) : Int :=
  roundHalfEven ((out0 : Int) * 127 + ((out127 : Int) - (out0 : Int)) * (v : Int)) 127

/-- attack_time(v) (R131). -/
def attackTime (cfg : Config) (v : Nat) : Int := mapVelocity cfg.atkV0 cfg.atkV127 v

/-- release_time(v) (R132). -/
def releaseTime (cfg : Config) (v : Nat) : Int := mapVelocity cfg.relV0 cfg.relV127 v

/-- sustain_time(v) = E − attack_time(v) − release_time(v) (R133). -/
def sustainTime (cfg : Config) (v : Nat) : Int := (cfg.envLen : Int) - attackTime cfg v - releaseTime cfg v

/-- Attack sample i of A (R138). -/
def attackSample (cfg : Config) (A i : Int) : Int :=
  floorDiv (peak * ((cfg.floorNum : Int) * A + ((cfg.floorDen : Int) - (cfg.floorNum : Int)) * i))
    ((cfg.floorDen : Int) * A)

/-- Release sample j of L (R140). -/
def releaseSample (L j : Int) : Int := floorDiv (peak * (L - 1 - j) ^ 2) ((L - 1) ^ 2)

/-- The value ENVGEN(v) computes for ENV[i]: attack, sustain-filler or release by the segment i lies in (R134, R135). -/
def envValue (cfg : Config) (v i : Nat) : Int :=
  let A := attackTime cfg v
  let L := releaseTime cfg v
  let U := sustainTime cfg v
  if (i : Int) < A then attackSample cfg A i
  else if (i : Int) < A + U then peak
  else releaseSample L ((i : Int) - A - U)

/-- The value ENVGEN(v) writes to ENV[i], narrowed at the write (R135, R141). -/
def envSample (cfg : Config) (v i : Nat) : Sample := narrow16 (envValue cfg v i)

end Sys2Proof.Machine
end

