-- ==== Sys2Proof/Machine/ConfigCheck.lean ====
section
/-! DEFINITION. The ten configuration checks of R207, run at step 1 of the reset procedure (R200). -/

namespace Sys2Proof.Machine

/-- Every velocity of [0, 127] passes the test. -/
def allVelocities (p : Nat → Bool) : Bool := (List.range (velMax + 1)).all p

/-- Check 1: 1 ≤ ADC_MAX ≤ 65535. -/
def checkAdcMax (cfg : Config) : Bool := decide (1 ≤ cfg.adcMax) && decide (cfg.adcMax ≤ 65535)

/-- Check 2: 0 < ALPHA_NUM < ALPHA_DEN ≤ 65535. -/
def checkAlpha (cfg : Config) : Bool :=
  decide (0 < cfg.alphaNum) && decide (cfg.alphaNum < cfg.alphaDen) && decide (cfg.alphaDen ≤ 65535)

/-- Check 3: 2 ≤ NUM_WAVES ≤ 65535. -/
def checkNumWaves (cfg : Config) : Bool := decide (2 ≤ cfg.numWaves) && decide (cfg.numWaves ≤ 65535)

/-- Check 4: 1 ≤ SAMPLE_SIZE ≤ 65535. -/
def checkSampleSize (cfg : Config) : Bool := decide (1 ≤ cfg.sampleSize) && decide (cfg.sampleSize ≤ 65535)

/-- Check 5: WAVES has exactly NUM_WAVES rows of SAMPLE_SIZE samples each. -/
def checkWaves (cfg : Config) : Bool :=
  decide (cfg.waves.length = cfg.numWaves) && cfg.waves.all fun row => decide (row.length = cfg.sampleSize)

/-- Check 6: 1 ≤ ENV_LEN ≤ 65535, and ATK_V0, ATK_V127, REL_V0, REL_V127 ≤ 65535. -/
def checkLengths (cfg : Config) : Bool :=
  decide (1 ≤ cfg.envLen) && decide (cfg.envLen ≤ 65535) && decide (cfg.atkV0 ≤ 65535) &&
    decide (cfg.atkV127 ≤ 65535) && decide (cfg.relV0 ≤ 65535) && decide (cfg.relV127 ≤ 65535)

/-- Check 7: 1 ≤ FLOOR_DEN ≤ 65535 and 0 ≤ FLOOR_NUM ≤ FLOOR_DEN. -/
def checkFloor (cfg : Config) : Bool :=
  decide (1 ≤ cfg.floorDen) && decide (cfg.floorDen ≤ 65535) && decide (cfg.floorNum ≤ cfg.floorDen)

/-- Check 8: attack_time(v) + release_time(v) ≤ ENV_LEN for every v in [0, 127]. -/
def checkSustain (cfg : Config) : Bool :=
  allVelocities fun v => decide (attackTime cfg v + releaseTime cfg v ≤ (cfg.envLen : Int))

/-- Check 9: release_time(v) ≥ 2 for every v in [0, 127]. -/
def checkRelease (cfg : Config) : Bool := allVelocities fun v => decide (2 ≤ releaseTime cfg v)

/-- Check 10: 0 ≤ HOLD_REF_VELOCITY ≤ 127 and attack_time(HOLD_REF_VELOCITY) < ENV_LEN. -/
def checkHold (cfg : Config) : Bool :=
  decide (cfg.holdRefVelocity ≤ velMax) && decide (attackTime cfg cfg.holdRefVelocity < (cfg.envLen : Int))

/-- The configuration is legal exactly when all ten checks hold (R207). -/
def configLegal (cfg : Config) : Bool :=
  checkAdcMax cfg && checkAlpha cfg && checkNumWaves cfg && checkSampleSize cfg && checkWaves cfg &&
    checkLengths cfg && checkFloor cfg && checkSustain cfg && checkRelease cfg && checkHold cfg

end Sys2Proof.Machine
end

