-- ==== Sys2Proof/Machine/Memory.lean ====
section
/-! DEFINITION. One writable sample space (R60, R61): a list of (sample index, sample) pairs in one canonical form,
indexes strictly rising and no pair that holds what an unlisted index reads as (log 1, log 2). -/

namespace Sys2Proof.Machine

/-- A sample space: its listed samples by index. The smallest addressable unit of the block is one int16 sample,
and no interface is byte-addressed (R61, R62). -/
abbrev Memory := List (Nat × Sample)

/-- What an unlisted index reads as: 0, which is also what a read outside a space returns (R63, log 2). -/
def Memory.unlisted : Sample := 0#16

/-- The sample at index a. -/
def Memory.read : Memory → Nat → Sample
  | [], _ => Memory.unlisted
  | (b, v) :: rest, a => if a = b then v else Memory.read rest a

/-- A pair, put before the rest unless it holds the unlisted value. -/
def Memory.consCell (a : Nat) (v : Sample) (rest : Memory) : Memory :=
  if v = Memory.unlisted then rest else (a, v) :: rest

/-- The space with v at index a, in canonical form. -/
def Memory.write : Memory → Nat → Sample → Memory
  | [], a, v => Memory.consCell a v []
  | (b, u) :: rest, a, v =>
    if a < b then Memory.consCell a v ((b, u) :: rest)
    else if a = b then Memory.consCell a v rest
    else (b, u) :: Memory.write rest a v

/-- The space after the writes of f 0, f 1, …, f (n-1) to the indexes 0, 1, …, n-1, in that order (R119, R142). -/
def Memory.writeSeq (m : Memory) (f : Nat → Sample) : Nat → Memory
  | 0 => m
  | n + 1 => (Memory.writeSeq m f n).write n (f n)

/-- The canonical form: indexes strictly rising, no pair equal to what an unlisted index reads as. -/
def Memory.wf : Memory → Bool
  | [] => true
  | (a, v) :: rest => (v != Memory.unlisted) && rest.all (fun c => decide (a < c.1)) && Memory.wf rest

/-- Every listed index is below n: the space has n samples (R60). -/
def Memory.within (n : Nat) (m : Memory) : Bool := m.all fun c => decide (c.1 < n)

end Sys2Proof.Machine
end

