-- ==== Sys2Proof/Machine/Mixer.lean ====
section
/-! DEFINITION. The Wavetable Mixer's functions: the WAVES space, index selection, the mix numerator and the
interpolation of one sample (R60, R112 to R114). -/

namespace Sys2Proof.Machine

/-- The sample of WAVES at a flat index k·S + i: sample i of row k (R60); 0 outside the table. -/
def waveRead (cfg : Config) (addr : Nat) : Sample :=
  match cfg.waves[addr / cfg.sampleSize]? with
  | some row => row.getD (addr % cfg.sampleSize) 0#16
  | none => 0#16

/-- index = min(floor_div((N − 1)·a, R), N − 2) (R112). -/
def mixIndex (cfg : Config) (a : Int) : Int :=
  min (floorDiv (((cfg.numWaves : Int) - 1) * a) (cfg.adcMax : Int)) ((cfg.numWaves : Int) - 2)

/-- m = clamp(b, 0, R), the numerator of the mix fraction m / R (R113). -/
def mixNumerator (cfg : Config) (b : Int) : Int := clamp b 0 (cfg.adcMax : Int)

/-- out = trunc_div((R − m)·w0 + m·w1, R) on the values of the two samples (R114). -/
def interpolate (cfg : Config) (m w0 w1 : Int) : Int :=
  truncDiv (((cfg.adcMax : Int) - m) * w0 + m * w1) (cfg.adcMax : Int)

/-- The value MIX writes to LIVE[i], narrowed at the write (R111, R114). -/
def mixSample (cfg : Config) (index m : Int) (i : Nat) : Sample :=
  narrow16 (interpolate cfg m
    (waveRead cfg (index.toNat * cfg.sampleSize + i)).toInt
    (waveRead cfg ((index.toNat + 1) * cfg.sampleSize + i)).toInt)

end Sys2Proof.Machine
end

