-- ==== Sys2Proof/Machine/ResetValues.lean ====
section
/-! DEFINITION. What reset writes to the memories and to HOLD_INDEX (R202, R203), and what they hold when the block
halts instead (R181, log 5). -/

namespace Sys2Proof.Machine

/-- LIVE after reset: LIVE[i] = WAVES[0][i] (R202). -/
def resetLive (cfg : Config) : Memory := Memory.writeSeq [] (waveRead cfg) cfg.sampleSize

/-- ENV after reset: ENVGEN(HOLD_REF_VELOCITY) (R203). -/
def resetEnv (cfg : Config) : Memory := Memory.writeSeq [] (envSample cfg cfg.holdRefVelocity) cfg.envLen

/-- HOLD_INDEX after reset: attack_time(HOLD_REF_VELOCITY) (R136, R203). -/
def resetHoldIndex (cfg : Config) : Reg16 := narrow16 (attackTime cfg cfg.holdRefVelocity)

/-- LIVE of a block halted for the k-th time: unspecified samples (R181). -/
def haltedLive (cfg : Config) (k : Nat) : Memory :=
  Memory.writeSeq [] (Config.freeHaltedLive k) cfg.sampleSize

/-- ENV of a block halted for the k-th time: unspecified samples (R181). -/
def haltedEnv (cfg : Config) (k : Nat) : Memory := Memory.writeSeq [] (Config.freeHaltedEnv k) cfg.envLen

end Sys2Proof.Machine
end

