-- ==== Sys2Proof/Machine/State.lean ====
section
/-! DEFINITION. The state of the block (10_state.md), the outcomes of a step, and the state after reset (R200). -/

namespace Sys2Proof.Machine

/-- An output event (R90). Its 32-bit word is `Event.word` of Machine/Events.lean. -/
inductive Event where
  /-- ENV_INSTALL(h): install ENV, with hold index h, as the note engine's envelope. -/
  | envInstall (hold : Reg16)
  /-- PRESS(k): press({k}). -/
  | press (note : Note)
  /-- RELEASE_THEN_PRESS(k): release_then_press(release = {k}, press = {}). -/
  | releaseThenPress (note : Note)
  deriving DecidableEq, Repr

/-- What the host does to the block (log 3, log 4). -/
inductive HostInput where
  /-- A command word offered on the command port (R80). -/
  | command (w : Word)
  /-- A reset between two commands, with the configuration that is fixed before reset is released (R200, R208). -/
  | reset (cfg : Config)
  /-- A command word offered on the command port, and a reset asserted before its command is complete, with the
  configuration that is fixed before reset is released (R183, R206). -/
  | resetDuring (w : Word) (cfg : Config)
  deriving DecidableEq, Repr

/-- The state of the block. Every field but `inputs` and `freeCount`, which are the model's own, is state the spec
gives the machine (R30, R41, R42, R8). WAVES is `cfg.waves` (R41, log 13). -/
structure State where
  /-- The implementation parameters, WAVES among them (R8, R41): changed by reset only. -/
  cfg : Config
  /-- KNOB_A (R32). -/
  knobA : Reg16
  /-- KNOB_B (R32). -/
  knobB : Reg16
  /-- NOTE_STATE (R33). -/
  noteState : NoteState
  /-- LED: true is 1, 'on' (R34). -/
  led : Bool
  /-- HOLD_INDEX (R35). -/
  holdIndex : Reg16
  /-- DIAG_INDEX (R37). -/
  diagIndex : Reg16
  /-- DIAG_MIX (R37). -/
  diagMix : Reg16
  /-- CMD_ERR, sticky (R36). -/
  cmdErr : Bool
  /-- CFG_ERR (R36): 1 when the block is halted (R181). -/
  cfgErr : Bool
  /-- LIVE, the Live Waveform Buffer (R41, R60). -/
  live : Memory
  /-- ENV, the Envelope Buffer (R41, R60). -/
  env : Memory
  /-- The output event stream, oldest first (R42). -/
  events : List Event
  /-- The model's own: what the host has queued for the block, oldest first (log 3). -/
  inputs : List HostInput
  /-- The model's own: how often free values have been drawn, by a halt or by an abandoned command, and their
  argument (log 4, log 5). -/
  freeCount : Nat
  deriving DecidableEq, Repr

/-- Why the machine stops with a fault. -/
inductive Fault where
  /-- Raised by `step` on a block that a configuration error has halted (CFG_ERR = 1) when the host's next input is
  no reset: a halted block accepts no command word and has no next step (R181, log 6). Safe: the hardware does
  nothing there either. -/
  | halted
  deriving DecidableEq, Repr

/-- Why the machine refuses an instruction. -/
inductive Refusal where
  /-- Raised by an arm of `exec` whose instruction has no meaning yet, with its mnemonic. Safe. No arm raises it. -/
  | notModelled (mnemonic : String)
  deriving DecidableEq, Repr

/-- Steps 2 to 5 of the reset procedure, for a legal configuration (R200 to R204).
What the host has queued behind the reset stays queued (log 4). -/
def State.afterReset (cfg : Config) (inputs : List HostInput) (freeCount : Nat) : State :=
  { cfg := cfg, knobA := 0#16, knobB := 0#16, noteState := .idle, led := false,
    holdIndex := resetHoldIndex cfg, diagIndex := 0#16, diagMix := 0#16, cmdErr := false, cfgErr := false,
    live := resetLive cfg, env := resetEnv cfg, events := [], inputs := inputs, freeCount := freeCount }

/-- Step 1 of the reset procedure when a check fails: CFG_ERR = 1, LED = 0, no event emitted, the stream left as it
is, and every other register and sample unspecified: free values (R181, R200, log 5). -/
def State.afterHalt (cfg : Config) (events : List Event) (inputs : List HostInput) (freeCount : Nat) : State :=
  { cfg := cfg,
    knobA := (Config.freeHaltedRegisters freeCount).knobA,
    knobB := (Config.freeHaltedRegisters freeCount).knobB,
    noteState := (Config.freeHaltedRegisters freeCount).noteState,
    led := false,
    holdIndex := (Config.freeHaltedRegisters freeCount).holdIndex,
    diagIndex := (Config.freeHaltedRegisters freeCount).diagIndex,
    diagMix := (Config.freeHaltedRegisters freeCount).diagMix,
    cmdErr := (Config.freeHaltedRegisters freeCount).cmdErr,
    cfgErr := true,
    live := haltedLive cfg freeCount, env := haltedEnv cfg freeCount,
    events := events, inputs := inputs, freeCount := freeCount + 1 }

/-- The block right after reset with the platform's configuration (R200, log 7). The platform's configuration is
legal whatever the free values in it are (`Laws.platform_legal`), so steps 2 to 5 of R200 have run. Nothing is
queued on the command port. -/
def State.reset : State := State.afterReset platform [] 0

end Sys2Proof.Machine
end

