-- ==== Sys2Proof/Machine/Events.lean ====
section
/-! DEFINITION. The event words and the note engine's operations they stand for (R90). -/

namespace Sys2Proof.Machine

/-- The 32-bit word of an event (R90). -/
def Event.word : Event → Word
  | .envInstall hold => 0x1#4 ++ 0#12 ++ hold
  | .press note => 0x2#4 ++ 0#13 ++ note ++ 0#8
  | .releaseThenPress note => 0x3#4 ++ 0#13 ++ note ++ 0#8

/-- An operation of the note engine (R90, R192). -/
inductive EngineOp where
  /-- Install the Envelope Buffer with this hold index. -/
  | installEnvelope (hold : Nat)
  /-- press(notes). -/
  | press (notes : List Nat)
  /-- release_then_press(release, press). -/
  | releaseThenPress (release press : List Nat)
  deriving DecidableEq, Repr

/-- The operation an event stands for: the block passes only the singleton {NOTE} and the empty set (R90). -/
def Event.operation : Event → EngineOp
  | .envInstall hold => .installEnvelope hold.toNat
  | .press note => .press [note.toNat]
  | .releaseThenPress note => .releaseThenPress [note.toNat] []

/-- The words of the output event stream, in emission order (R42, R90). -/
def eventWords (s : State) : List Word := s.events.map Event.word

end Sys2Proof.Machine
end

