-- ==== Sys2Proof/Machine/Flags.lean ====
section
/-! DEFINITION. The flags of the block and the register read port (R33, R36, R38, R39). -/

namespace Sys2Proof.Machine

/-- One bit as a field of a register word. -/
def bit (b : Bool) : BitVec 1 := BitVec.ofBool b

/-- SOUNDING, the flag of NOTE_STATE (R33). -/
def isSounding : NoteState → Bool
  | .idle => false
  | .sounding _ => true

/-- NOTE of NOTE_STATE: 0 when Idle (R33). -/
def noteNumber : NoteState → Note
  | .idle => 0#7
  | .sounding n => n

/-- The register NOTE_STATE as 8 bits: SOUNDING above NOTE (R30, R33). -/
def noteStateBits (n : NoteState) : BitVec 8 := bit (isSounding n) ++ noteNumber n

/-- STATUS: SOUNDING, LED, CMD_ERR, CFG_ERR in bits 0 to 3, NOTE in bits 14 to 8, the other bits 0 (R39). -/
def statusWord (s : State) : BitVec 16 :=
  0#1 ++ noteNumber s.noteState ++ 0#4 ++ bit s.cfgErr ++ bit s.cmdErr ++ bit s.led ++ bit (isSounding s.noteState)

/-- The register read port: an 8-bit register number to 16 bits, reserved numbers read 0, no side effect (R39, R40). -/
def readPort (s : State) (number : BitVec 8) : BitVec 16 :=
  match number.toNat with
  | 0 => statusWord s
  | 1 => s.knobA
  | 2 => s.knobB
  | 3 => s.holdIndex
  | 4 => s.diagIndex
  | 5 => s.diagMix
  | _ => 0#16

/-- CMD_ERR <- 1 (R182): sticky, cleared by reset only (R36, R188). -/
def setCmdErr (s : State) : State := { s with cmdErr := true }

/-- The two error outcomes of the block (R180). -/
inductive ErrorCause where
  /-- A configuration check failed at reset (R181). -/
  | configError
  /-- An illegal command word was discarded (R182). -/
  | illegalCommand
  deriving DecidableEq, Repr

/-- The cause code of R180, a name for records: no register holds it. -/
def causeCode : ErrorCause → Nat
  | .configError => 1
  | .illegalCommand => 2

/-- Whether the cause's flag bit is set: the flag bit shows which cause occurred (R180). -/
def causeShown (s : State) : ErrorCause → Bool
  | .configError => s.cfgErr
  | .illegalCommand => s.cmdErr

end Sys2Proof.Machine
end

