-- ==== Sys2Proof/Machine/Operands.lean ====
section
/-! DEFINITION. The operand forms: a raw knob operand is clamped to the raw range (R100); a note operand is the
7-bit note number and a velocity operand the integer itself (R83). -/

namespace Sys2Proof.Machine

/-- r = min(RAW, ADC_MAX) (R100): out-of-range input is clamped, never faulted (R184). -/
def conditionRaw (cfg : Config) (raw : Nat) : Int := min (raw : Int) (cfg.adcMax : Int)

/-- The note operand as the 7-bit NOTE field of NOTE_STATE and of an event word (R33, R90). -/
def noteOperand (note : Nat) : Note := BitVec.ofNat 7 note

end Sys2Proof.Machine
end

