-- ==== Sys2Proof/Machine/Ops.lean ====
section
/-! DEFINITION. The named operations over the memories, the event stream and the command port, the
illegal-command outcome (R182) and reset (R200): every command is written over them. -/

namespace Sys2Proof.Machine

/-- The three sample-indexed memory spaces (R60). -/
inductive Space where
  | waves | live | env
  deriving DecidableEq, Repr

/-- The two spaces that have a write path: WAVES has none (R60, R72). -/
inductive Buffer where
  | live | env
  deriving DecidableEq, Repr

/-- A writable space as a space. -/
def Buffer.space : Buffer → Space
  | .live => .live
  | .env => .env

/-- How many samples a space has (R60). -/
def spaceSize (cfg : Config) : Space → Nat
  | .waves => cfg.numWaves * cfg.sampleSize
  | .live => cfg.sampleSize
  | .env => cfg.envLen

/-- MemRead((space, index), 1) (R14, R61): one whole sample, no side effect (R74). -/
def memRead (s : State) : Space → Nat → Sample
  | .waves, a => waveRead s.cfg a
  | .live, a => s.live.read a
  | .env, a => s.env.read a

/-- MemWrite((buffer, index), 1, v) (R14, R61). The spaces are disjoint (R60). -/
def memWrite (s : State) (b : Buffer) (a : Nat) (v : Sample) : State :=
  match b with
  | .live => { s with live := s.live.write a v }
  | .env => { s with env := s.env.write a v }

/-- Rewrite a buffer's first n samples, ascending, with f 0, f 1, …, f (n-1) (R119, R142). -/
def memRewrite (s : State) (b : Buffer) (f : Nat → Sample) (n : Nat) : State :=
  match b with
  | .live => { s with live := s.live.writeSeq f n }
  | .env => { s with env := s.env.writeSeq f n }

/-- Emit(e): append an event to the output event stream (R14, R42). -/
def emit (e : Event) (s : State) : State := { s with events := s.events ++ [e] }

/-- ENVGEN(v): rewrite every sample of ENV; HOLD_INDEX is not written and no event is emitted (R135, R136). -/
def envgen (v : Nat) (s : State) : State := memRewrite s .env (envSample s.cfg v) s.cfg.envLen

/-- The illegal-command outcome: the word is discarded and CMD_ERR is set, nothing else changes (R182, R187). -/
def raiseIllegalCommand (s : State) : State := setCmdErr s

/-- The reset procedure (R200): the checks of R207 first; a failed check halts the block (R181). The state after a
reset with a legal configuration does not depend on the registers and samples before it (R206). -/
def resetBlock (cfg : Config) (s : State) : State :=
  if configLegal cfg then State.afterReset cfg s.inputs s.freeCount
  else State.afterHalt cfg s.events s.inputs s.freeCount

/-- Offer a word at the head of the host's queue, so that it is the next word the block accepts (log 10). -/
def offerWord (s : State) (w : Word) : State := { s with inputs := .command w :: s.inputs }

/-- The configuration a host input resets the block with, if it resets it (R200, R206). -/
def HostInput.resetConfig : HostInput → Option Config
  | .command _ => none
  | .reset cfg => some cfg
  | .resetDuring _ cfg => some cfg

/-- The configuration the host's oldest input resets the block with, if it resets it. -/
def nextReset (s : State) : Option Config := s.inputs.head?.bind HostInput.resetConfig

/-- The host's queue without its oldest entry: the block has accepted a word, or a reset is served (R66). -/
def takeInput (s : State) : State := { s with inputs := s.inputs.tail }

end Sys2Proof.Machine
end

