-- ==== Sys2Proof/Machine/Smoother.lean ====
section
/-! DEFINITION. The Knob Smoother's function (R103). -/

namespace Sys2Proof.Machine

/-- smooth(s, r) = r − trunc_div((r − s)·ALPHA_NUM, ALPHA_DEN): the exact α·s + (1−α)·r rounded toward r (R103). -/
def smooth (cfg : Config) (s r : Int) : Int :=
  r - truncDiv ((r - s) * (cfg.alphaNum : Int)) (cfg.alphaDen : Int)

end Sys2Proof.Machine
end

