-- ==== Sys2Proof/Machine/Knobs.lean ====
section
/-! DEFINITION. The Knob Smoother's commands KNOBA and KNOBB (40_knob_smoother.md). -/

namespace Sys2Proof.Machine

/-- The register value after one smoothing of it toward a raw operand, narrowed at the write (R100, R101, R102). -/
def smoothedKnob (cfg : Config) (knob : Reg16) (raw : Nat) : Reg16 :=
  narrow16 (smooth cfg (regValue knob) (conditionRaw cfg raw))

/-- KNOBA RAW (R101). -/
def execKnoba (raw : Nat) (s : State) : Host.Outcome State Fault Refusal :=
  .next { s with knobA := smoothedKnob s.cfg s.knobA raw }

/-- KNOBB RAW (R102). -/
def execKnobb (raw : Nat) (s : State) : Host.Outcome State Fault Refusal :=
  .next { s with knobB := smoothedKnob s.cfg s.knobB raw }

end Sys2Proof.Machine
end

