-- ==== Sys2Proof/Machine/Mix.lean ====
section
/-! DEFINITION. The Wavetable Mixer's command MIX (41_wavetable_mixer.md). -/

namespace Sys2Proof.Machine

/-- The wave index MIX computes from KNOB_A (R112). -/
def currentIndex (s : State) : Int := mixIndex s.cfg (regValue s.knobA)

/-- The mix numerator MIX computes from KNOB_B (R113). -/
def currentMix (s : State) : Int := mixNumerator s.cfg (regValue s.knobB)

/-- The diagnostic snapshot: DIAG_INDEX <- index, DIAG_MIX <- m (R117). -/
def writeDiag (index m : Int) (s : State) : State :=
  { s with diagIndex := narrow16 index, diagMix := narrow16 m }

/-- MIX (R111): all S samples of LIVE, ascending, then the diagnostic snapshot. -/
def execMix (s : State) : Host.Outcome State Fault Refusal :=
  .next (writeDiag (currentIndex s) (currentMix s)
    (memRewrite s .live (mixSample s.cfg (currentIndex s) (currentMix s)) s.cfg.sampleSize))

end Sys2Proof.Machine
end

