-- ==== Sys2Proof/Machine/Notes.lean ====
section
/-! DEFINITION. The Note State Machine's commands NOTEON and NOTEOFF (43_note_state_machine.md). -/

namespace Sys2Proof.Machine

/-- The press sequence, in the order of R152: ENVGEN, ENV_INSTALL(HOLD_INDEX), PRESS, LED, NOTE_STATE. -/
def pressSequence (note vel : Nat) (s : State) : State :=
  let s1 := envgen vel s
  let s2 := emit (.envInstall s1.holdIndex) s1
  let s3 := emit (.press (noteOperand note)) s2
  let s4 := { s3 with led := true }
  { s4 with noteState := .sounding (noteOperand note) }

/-- NOTE_STATE after a release of the note: Idle when it is the sounding note, else unchanged (R155, R156). -/
def releasedNoteState (note : Note) (n : NoteState) : NoteState :=
  if n = .sounding note then .idle else n

/-- The release sequence, in the order of R155: RELEASE_THEN_PRESS, LED, NOTE_STATE. -/
def releaseSequence (note : Nat) (s : State) : State :=
  let s1 := emit (.releaseThenPress (noteOperand note)) s
  let s2 := { s1 with led := false }
  { s2 with noteState := releasedNoteState (noteOperand note) s2.noteState }

/-- NOTEON NOTE, VEL (R151): a press, or with velocity 0 a release (R153). -/
def execNoteon (note vel : Nat) (s : State) : Host.Outcome State Fault Refusal :=
  if 0 < vel then .next (pressSequence note vel s) else .next (releaseSequence note s)

/-- NOTEOFF NOTE (R154). -/
def execNoteoff (note : Nat) (s : State) : Host.Outcome State Fault Refusal :=
  .next (releaseSequence note s)

end Sys2Proof.Machine
end

