-- ==== Sys2Proof/Machine/Actions.lean ====
section
/-! DEFINITION. The writes and emits of a command, one by one, in the order of its rule (R15, R67), and what is left
of a command that reset abandons (R183, R206). -/

namespace Sys2Proof.Machine

/-- One write or emit of a command (R15): a sample of a buffer, an event, or a register. -/
inductive Action where
  | store (b : Buffer) (i : Nat) (v : Sample)
  | emit (e : Event)
  | setKnobA (v : Reg16)
  | setKnobB (v : Reg16)
  | setNoteState (n : NoteState)
  | setLed (b : Bool)
  | setDiagIndex (v : Reg16)
  | setDiagMix (v : Reg16)
  | setCmdErr
  deriving DecidableEq, Repr

/-- The state after one action. -/
def applyAction (s : State) : Action → State
  | .store b i v => memWrite s b i v
  | .emit e => Sys2Proof.Machine.emit e s
  | .setKnobA v => { s with knobA := v }
  | .setKnobB v => { s with knobB := v }
  | .setNoteState n => { s with noteState := n }
  | .setLed b => { s with led := b }
  | .setDiagIndex v => { s with diagIndex := v }
  | .setDiagMix v => { s with diagMix := v }
  | .setCmdErr => Sys2Proof.Machine.setCmdErr s

/-- The state after a list of actions, in order. -/
def applyActions (acts : List Action) (s : State) : State := acts.foldl applyAction s

/-- The stores of one whole rewrite of a buffer, ascending (R119, R142). -/
def rewriteActions (b : Buffer) (f : Nat → Sample) (n : Nat) : List Action :=
  (List.range n).map fun i => .store b i (f i)

/-- The actions of the press sequence, in the order of R152. -/
def pressActions (note vel : Nat) (s : State) : List Action :=
  rewriteActions .env (envSample s.cfg vel) s.cfg.envLen ++
    [.emit (.envInstall s.holdIndex), .emit (.press (noteOperand note)), .setLed true,
      .setNoteState (.sounding (noteOperand note))]

/-- The actions of the release sequence, in the order of R155. -/
def releaseActions (note : Nat) (s : State) : List Action :=
  [.emit (.releaseThenPress (noteOperand note)), .setLed false,
    .setNoteState (releasedNoteState (noteOperand note) s.noteState)]

/-- The actions of MIX, in the order of R111. -/
def mixActions (s : State) : List Action :=
  rewriteActions .live (mixSample s.cfg (currentIndex s) (currentMix s)) s.cfg.sampleSize ++
    [.setDiagIndex (narrow16 (currentIndex s)), .setDiagMix (narrow16 (currentMix s))]

/-- The actions of a command in a state, in the order its rule gives them (R15, R67). -/
def commandActions (s : State) : Instr → List Action
  | .noteon note vel => if 0 < vel then pressActions note vel s else releaseActions note s
  | .noteoff note => releaseActions note s
  | .knoba raw => [.setKnobA (smoothedKnob s.cfg s.knobA raw)]
  | .knobb raw => [.setKnobB (smoothedKnob s.cfg s.knobB raw)]
  | .mix => mixActions s

/-- The actions of an accepted word: those of its command, or of the illegal-command outcome (R84, R182). -/
def wordActions (s : State) (w : Word) : List Action :=
  match decode w with
  | .ok i => commandActions s i
  | .error _ => [.setCmdErr]

/-- The actions that took effect of a command that reset cut short: any of its writes, `wrote` saying which by their
position, and its first `events` events, each whole (R206, R67, log 4). -/
def survivingActions (wrote : Nat → Bool) : Nat → Nat → List Action → List Action
  | _, _, [] => []
  | pos, 0, .emit _ :: acts => survivingActions wrote (pos + 1) 0 acts
  | pos, events + 1, .emit e :: acts => .emit e :: survivingActions wrote (pos + 1) events acts
  | pos, events, a :: acts =>
    if wrote pos then a :: survivingActions wrote (pos + 1) events acts
    else survivingActions wrote (pos + 1) events acts

/-- The state in which reset abandons the command of an accepted word: which of its writes took effect, and how many
of its events were emitted, are free values (R206, log 4). -/
def abandonWord (w : Word) (s : State) : State :=
  { applyActions (survivingActions (Config.freeAbandonedWrite s.freeCount) 0
      (Config.freeAbandonedEvents s.freeCount) (wordActions s w)) s with freeCount := s.freeCount + 1 }

end Sys2Proof.Machine
end

