-- ==== Sys2Proof/Machine/Dispatch.lean ====
section
/-! DEFINITION. The dispatch of a decoded command to its meaning: one arm per constructor of Instr. -/

namespace Sys2Proof.Machine

def exec (i : Instr) (s : State) : Host.Outcome State Fault Refusal :=
  match i with
  | .noteon note vel => Sys2Proof.Machine.execNoteon note vel s
  | .noteoff note => Sys2Proof.Machine.execNoteoff note s
  | .knoba raw => Sys2Proof.Machine.execKnoba raw s
  | .knobb raw => Sys2Proof.Machine.execKnobb raw s
  | .mix => Sys2Proof.Machine.execMix s

end Sys2Proof.Machine
end

