-- ==== Sys2Proof/Machine/Command.lean ====
section
/-! DEFINITION. Running one command word, and what the block does with the host's next input (R66, R84, R181). -/

namespace Sys2Proof.Machine

/-- Run an accepted command word: the decoded command, or the illegal-command outcome (R84, R182). -/
def runWord (w : Word) (s : State) : Host.Outcome State Fault Refusal :=
  match decode w with
  | .ok i => exec i s
  | .error _ => .next (raiseIllegalCommand s)

/-- Reset asserted while the command of a word is in progress: the block abandons the command, then runs the reset
procedure (R183, R200, R206). A halted block has taken no word, so there is no command to abandon (R181). -/
def resetDuringWord (w : Word) (cfg : Config) (s : State) : State :=
  resetBlock cfg (if s.cfgErr then s else abandonWord w s)

/-- Serve the host's oldest input. A reset runs the reset procedure, halted or not, and abandons the command it cuts
short (R183, R200, R206). A halted block has no other step (R181, log 6). Otherwise the block accepts the next
command word and runs it (R66), and with no word offered it holds its state (R162, R195, log 3). -/
def serveInput (s : State) : Host.Outcome State Fault Refusal :=
  match s.inputs with
  | .reset cfg :: _ => .next (resetBlock cfg (takeInput s))
  | .resetDuring w cfg :: _ => .next (resetDuringWord w cfg (takeInput s))
  | .command w :: _ => if s.cfgErr then .fault .halted else runWord w (takeInput s)
  | [] => if s.cfgErr then .fault .halted else .next s

end Sys2Proof.Machine
end

