-- ==== Sys2Proof/Machine/Step.lean ====
section
/-! DEFINITION. One step of the block: the host's next input, served to its completion (R66). -/

namespace Sys2Proof.Machine

/-- One step: a whole command is one atomic step (R15, R66). -/
def step (s : State) : Host.Outcome State Fault Refusal := Sys2Proof.Machine.serveInput s

/-- The state with the word of the table row's bits offered as the next command word (log 10). -/
def State.withFetchWord (s : State) (nbits w : Nat) : State :=
  Sys2Proof.Machine.offerWord s (Sys2Proof.tableWord nbits w)

end Sys2Proof.Machine
end

