-- ==== Sys2Proof/Machine/Cycle.lean ====
section
/-! DEFINITION. The host's side of a control cycle: MIDI events as commands (R94), and the pseudo-instruction CYCLE
as the command sequence the host sends each tick (R170, R171). -/

namespace Sys2Proof.Machine

/-- A MIDI event as the host's parser gives it (R94): a Note Off carries no velocity. -/
inductive MidiEvent where
  | noteOn (note vel : Nat)
  | noteOff (note : Nat)
  deriving DecidableEq, Repr

/-- The command the host sends for a MIDI event (R94). -/
def midiCommand : MidiEvent → Instr
  | .noteOn note vel => .noteon note vel
  | .noteOff note => .noteoff note

/-- The expansion of CYCLE: at most one event, then KNOBA, KNOBB and MIX (R93, R171, R172). -/
def cycleCommands (ev : Option MidiEvent) (rawA rawB : Nat) : List Instr :=
  (ev.map midiCommand).toList ++ [.knoba rawA, .knobb rawB, .mix]

/-- Run a list of commands in order, each to its completion (R66). -/
def execAll : List Instr → State → Host.Outcome State Fault Refusal
  | [], s => .next s
  | i :: rest, s =>
    match exec i s with
    | .next s' => execAll rest s'
    | .fault r => .fault r
    | .refused r => .refused r

/-- Append the words of commands to the host's queue. -/
def sendCommands (cmds : List Instr) (s : State) : State :=
  { s with inputs := s.inputs ++ cmds.map fun i => .command (encode i) }

end Sys2Proof.Machine
end

