-- ==== Sys2Proof/Machine/Assembler.lean ====
section
/-! DEFINITION. The assembler syntax and the pseudo-instructions (R92, R93): one line of text, a list of characters,
to command words. The points of lexical form that R92 leaves open are log 11. -/

namespace Sys2Proof.Machine

/-- Why a line does not assemble. -/
inductive AsmError where
  /-- The line has no form of R92 or R93. -/
  | badLine
  /-- An operand is outside its field's range: an error, not a truncated field (R92). -/
  | operandRange
  deriving DecidableEq, Repr

/-- One line of assembly, read but not range-checked. -/
inductive AsmLine where
  /-- Nothing but white space and a comment. -/
  | blank
  /-- A core mnemonic with its operands. -/
  | command (i : Instr)
  /-- `.word <value>`: the value as given, legal or not. -/
  | word (value : Nat)
  /-- `noteoff0 <note>`. -/
  | noteoff0 (note : Nat)
  /-- `cycle [noteon <note>, <vel>, | noteoff <note>,] <rawA>, <rawB>`. -/
  | cycle (ev : Option MidiEvent) (rawA rawB : Nat)
  deriving DecidableEq, Repr

/-- The commands a line stands for, pseudo-instructions expanded (R93); `.word` stands for none. -/
def lineCommands : AsmLine → List Instr
  | .command i => [i]
  | .noteoff0 note => [.noteon note 0]
  | .cycle ev rawA rawB => cycleCommands ev rawA rawB
  | .blank => []
  | .word _ => []

/-- The words of a line (R92): an operand outside its range is an error. -/
def assembleLine (line : AsmLine) : Except AsmError (List Word) :=
  match line with
  | .word value => if value < 2 ^ 32 then .ok [BitVec.ofNat 32 value] else .error .operandRange
  | _ => if (lineCommands line).all Instr.wf then .ok ((lineCommands line).map encode) else .error .operandRange

/-- White space inside a line. -/
def isBlankChar (c : Char) : Bool := c == ' ' || c == '\t' || c == '\r'

/-- The line without its comment, in lower case: `;` starts a comment, mnemonics are case-insensitive (R92). -/
def cleanLine (l : List Char) : List Char := (l.takeWhile fun c => c != ';').map Char.toLower

/-- A list of characters without leading white space. -/
def dropBlanks (l : List Char) : List Char := l.dropWhile isBlankChar

/-- A list of characters without white space at either end. -/
def trim (l : List Char) : List Char := (dropBlanks (dropBlanks l).reverse).reverse

/-- The first word of a trimmed line and what follows it, trimmed. -/
def firstWord (l : List Char) : List Char × List Char :=
  (l.takeWhile fun c => !isBlankChar c, dropBlanks (l.dropWhile fun c => !isBlankChar c))

/-- The parts of a list of characters between commas. -/
def splitCommas : List Char → List (List Char)
  | [] => [[]]
  | c :: rest =>
    if c = ',' then [] :: splitCommas rest
    else
      match splitCommas rest with
      | [] => [[c]]
      | part :: parts => (c :: part) :: parts

/-- The value of a digit in a base up to 16. -/
def digitValue (base : Nat) (c : Char) : Option Nat :=
  let v := if '0' ≤ c ∧ c ≤ '9' then c.toNat - '0'.toNat
    else if 'a' ≤ c ∧ c ≤ 'f' then c.toNat - 'a'.toNat + 10 else base
  if v < base then some v else none

/-- The number the digits write in a base, read on from a value. -/
def readDigits (base : Nat) : Nat → List Char → Option Nat
  | acc, [] => some acc
  | acc, c :: rest =>
    match digitValue base c with
    | some d => readDigits base (acc * base + d) rest
    | none => none

/-- An operand as text writes it: one or more decimal digits, or `0x` and one or more hexadecimal digits (R92). -/
inductive Numeral where
  | decimal (d : Fin 10) (ds : List (Fin 10))
  | hex (d : Fin 16) (ds : List (Fin 16))
  deriving DecidableEq, Repr

/-- The lower-case character of a digit below 16. -/
def digitChar (d : Nat) : Char := if d < 10 then Char.ofNat (48 + d) else Char.ofNat (87 + d)

/-- The characters of a written operand. -/
def Numeral.text : Numeral → List Char
  | .decimal d ds => (d :: ds).map fun x => digitChar x.val
  | .hex d ds => '0' :: 'x' :: (d :: ds).map fun x => digitChar x.val

/-- The number a written operand stands for, its first digit the most significant. -/
def Numeral.value : Numeral → Nat
  | .decimal d ds => (d :: ds).foldl (fun acc x => acc * 10 + x.val) 0
  | .hex d ds => (d :: ds).foldl (fun acc x => acc * 16 + x.val) 0

/-- A decimal or `0x` hexadecimal operand (R92). -/
def readNumber (l : List Char) : Option Nat :=
  match l with
  | [] => none
  | '0' :: 'x' :: c :: rest => readDigits 16 0 (c :: rest)
  | _ => readDigits 10 0 l

/-- The operands of a command, separated by commas (R92). -/
def readOperands (l : List Char) : Option (List Nat) :=
  if l = [] then some [] else (splitCommas l).mapM fun part => readNumber (trim part)

/-- A `cycle` line after its mnemonic (R93). -/
def readCycle (l : List Char) : Option AsmLine :=
  match firstWord l with
  | (['n', 'o', 't', 'e', 'o', 'n'], rest) =>
    match readOperands rest with
    | some [note, vel, rawA, rawB] => some (.cycle (some (.noteOn note vel)) rawA rawB)
    | _ => none
  | (['n', 'o', 't', 'e', 'o', 'f', 'f'], rest) =>
    match readOperands rest with
    | some [note, rawA, rawB] => some (.cycle (some (.noteOff note)) rawA rawB)
    | _ => none
  | _ =>
    match readOperands l with
    | some [rawA, rawB] => some (.cycle none rawA rawB)
    | _ => none

/-- A mnemonic with its operands, one form of R92 or R93. -/
def readForm (mnemonic : List Char) (rest : List Char) : Option AsmLine :=
  if mnemonic = ['c', 'y', 'c', 'l', 'e'] then readCycle rest
  else
    match mnemonic, readOperands rest with
    | ['n', 'o', 't', 'e', 'o', 'n'], some [note, vel] => some (.command (.noteon note vel))
    | ['n', 'o', 't', 'e', 'o', 'f', 'f'], some [note] => some (.command (.noteoff note))
    | ['k', 'n', 'o', 'b', 'a'], some [raw] => some (.command (.knoba raw))
    | ['k', 'n', 'o', 'b', 'b'], some [raw] => some (.command (.knobb raw))
    | ['m', 'i', 'x'], some [] => some (.command .mix)
    | ['.', 'w', 'o', 'r', 'd'], some [value] => some (.word value)
    | ['n', 'o', 't', 'e', 'o', 'f', 'f', '0'], some [note] => some (.noteoff0 note)
    | _, _ => none

/-- One line of assembly text, one command per line (R92). -/
def readLine (l : List Char) : Except AsmError AsmLine :=
  let text := trim (cleanLine l)
  if text = [] then .ok .blank
  else
    match readForm (firstWord text).1 (firstWord text).2 with
    | some line => .ok line
    | none => .error .badLine

/-- One line of assembly text to command words (R92, R93). -/
def assemble (l : List Char) : Except AsmError (List Word) :=
  match readLine l with
  | .ok line => assembleLine line
  | .error e => .error e

end Sys2Proof.Machine
end

