-- ==== Sys2Proof/Machine/Renderer.lean ====
section
/-! DEFINITION. What the renderer may observe (R60, R63, R64, R67, R68, R208): the values a read of LIVE, ENV or
HOLD_INDEX may return while the block is at rest, runs a command, is in reset or is halted. The race is given by the
list of its admitted values, so a claim about a racing read holds for each of them (log 9). -/

namespace Sys2Proof.Machine

/-- A renderer read of a buffer between commands: 0 outside the buffer, no side effect (R63, R74). -/
def rendererRead (s : State) (b : Buffer) (i : Nat) : Sample :=
  if i < spaceSize s.cfg b.space then memRead s b.space i else 0#16

/-- A renderer read of HOLD_INDEX, constant after reset (R35, R68). -/
def rendererHoldIndex (s : State) : Reg16 := s.holdIndex

/-- The actions up to and including the n-th emit, and the actions after it. -/
def splitAtEvent : Nat → List Action → List Action × List Action
  | 0, acts => ([], acts)
  | _ + 1, [] => ([], [])
  | n + 1, .emit e :: acts =>
    (.emit e :: (splitAtEvent n acts).1, (splitAtEvent n acts).2)
  | n + 1, a :: acts => (a :: (splitAtEvent (n + 1) acts).1, (splitAtEvent (n + 1) acts).2)

/-- The values the actions store to one sample, in order. -/
def storesTo (b : Buffer) (i : Nat) (acts : List Action) : List Sample :=
  acts.filterMap fun a =>
    match a with
    | .store b' i' v => if b' = b ∧ i' = i then some v else none
    | _ => none

/-- The values a renderer read of sample i may return while a command with these actions runs from s, once the
renderer has received the first n of its events: the value that every write before the n-th event leaves, or a value
the command writes to that sample after it (R64, R67, R68); 0 outside the buffer (R63). -/
def readsDuring (s : State) (acts : List Action) (n : Nat) (b : Buffer) (i : Nat) : List Sample :=
  if i < spaceSize s.cfg b.space then
    memRead (applyActions (splitAtEvent n acts).1 s) b.space i :: storesTo b i (splitAtEvent n acts).2
  else [0#16]

/-- Every int16 value: what a read may return where the spec leaves the value unspecified (R208). -/
def anySample : List Sample := (List.range 65536).map (BitVec.ofNat 16)

/-- The values a renderer read of sample i may return while the block serves nothing: the sample, or on a halted
block, whose reset has not completed, any value (R181, R208, log 18). -/
def readsAtRest (s : State) (b : Buffer) (i : Nat) : List Sample :=
  if s.cfgErr then anySample else [rendererRead s b i]

/-- The values a renderer read of sample i may return while the block, in state s, serves a host input, once the
renderer has received the first n events of the input's command. Before a reset completes a read returns an
unspecified value (R208, log 18), and a halted block takes no word (R181). -/
def readsServing (s : State) (input : HostInput) (n : Nat) (b : Buffer) (i : Nat) : List Sample :=
  match input with
  | .command w => if s.cfgErr then anySample else readsDuring s (wordActions s w) n b i
  | .reset _ => anySample
  | .resetDuring _ _ => anySample

/-- The values a renderer read of HOLD_INDEX may return while the block serves a host input: the register, constant
after reset (R35, R68), and before a reset completes an unspecified value (R208, log 18). -/
def holdReadsServing (s : State) (input : HostInput) : List Reg16 :=
  match input with
  | .command _ => if s.cfgErr then anySample else [rendererHoldIndex s]
  | .reset _ => anySample
  | .resetDuring _ _ => anySample

end Sys2Proof.Machine
end

