-- ==== Sys2Proof/Safety.lean ====
section
/-! DEFINITION. The invariant of the block and what counts as a safe run, in the terms the statements use. -/

namespace Sys2Proof.Machine

/-- A block that a legal configuration lets run: CFG_ERR is 0 (R181). -/
def State.running (s : State) : Prop := s.cfgErr = false

/-- The registers are in the ranges R30 gives them. -/
structure State.RegistersInRange (s : State) : Prop where
  knobA : s.knobA.toNat ≤ s.cfg.adcMax
  knobB : s.knobB.toNat ≤ s.cfg.adcMax
  diagIndex : s.diagIndex.toNat + 2 ≤ s.cfg.numWaves
  diagMix : s.diagMix.toNat ≤ s.cfg.adcMax
  holdIndex : s.holdIndex.toNat < s.cfg.envLen

/-- Both buffers are in canonical form and list no index outside their space (R60, R63). -/
structure State.BuffersInRange (s : State) : Prop where
  liveWf : s.live.wf = true
  liveWithin : s.live.within s.cfg.sampleSize = true
  envWf : s.env.wf = true
  envWithin : s.env.within s.cfg.envLen = true

/-- ENV holds the envelope of one velocity, whole (R143, R203). -/
def State.EnvelopeWhole (s : State) : Prop :=
  ∃ v, v ≤ velMax ∧ ∀ i, i < s.cfg.envLen → s.env.read i = envSample s.cfg v i

/-- LIVE holds what one MIX with the index and mix numerator of the diagnostic snapshot writes (R37, R117, R202). -/
def State.LiveMatchesDiag (s : State) : Prop :=
  ∀ i, i < s.cfg.sampleSize → s.live.read i = mixSample s.cfg (regValue s.diagIndex) (regValue s.diagMix) i

/-- Every PRESS of the stream stands right behind an ENV_INSTALL of the hold index (R152, R204). -/
def pressesInstalled (hold : Reg16) : List Event → Prop
  | [] => True
  | .press _ :: _ => False
  | .envInstall h :: .press _ :: rest => h = hold ∧ pressesInstalled hold rest
  | .envInstall _ :: _ => False
  | .releaseThenPress _ :: rest => pressesInstalled hold rest

/-- The invariant of a running block: the ranges of its registers and spaces, and the relations between its state
that the rules give. -/
structure State.RunningInv (s : State) : Prop where
  legal : configLegal s.cfg = true
  registers : s.RegistersInRange
  buffers : s.BuffersInRange
  hold : s.holdIndex = resetHoldIndex s.cfg
  envelope : s.EnvelopeWhole
  live : s.LiveMatchesDiag
  /-- LED is 1 only while a note is tracked: every RELEASE_THEN_PRESS clears it, every PRESS tracks a note (R34). -/
  led : s.led = true → isSounding s.noteState = true
  stream : pressesInstalled s.holdIndex s.events

/-- The invariant of a halted block: CFG_ERR is 1 exactly when the configuration failed a check, LED is 0, and the
spaces keep their canonical form (R36, R181). -/
structure State.HaltedInv (s : State) : Prop where
  illegal : configLegal s.cfg = false
  led : s.led = false
  buffers : s.BuffersInRange

/-- The invariant every step keeps. -/
def State.Inv (s : State) : Prop :=
  (s.cfgErr = false → s.RunningInv) ∧ (s.cfgErr = true → s.HaltedInv)

/-- A safe run: no step of it stops. A block is safe now when its next step is a next state. -/
def State.safe (s : State) : Prop := ∃ t, step s = .next t

end Sys2Proof.Machine
end

