-- ==== Sys2Proof/Certificates/Slice0/Obligations.lean ====
section
/-! DEFINITION. The statements for the provers, from the numbered rules of spec/. -/

open Sys2Proof Sys2Proof.Machine

/-- Ten words written out from the encoding: NOTEON 60,100; NOTEON 127,0; NOTEOFF 64; KNOBA 65535; KNOBB 96; MIX
decode to these commands, and 0x10003CE4, 0x20004001, 0x50000001 and 0x00000000 decode to no command. (R82, R83,
95_test_vectors.md section 2.1) -/
def Obligations.DecodeGivesTheTableWords : Prop :=
  decodeTableWord 32 0x10003C64 = some (.noteon 60 100) ∧
  decodeTableWord 32 0x10007F00 = some (.noteon 127 0) ∧
  decodeTableWord 32 0x20004000 = some (.noteoff 64) ∧
  decodeTableWord 32 0x3000FFFF = some (.knoba 65535) ∧
  decodeTableWord 32 0x40000060 = some (.knobb 96) ∧
  decodeTableWord 32 0x50000000 = some .mix ∧
  decodeTableWord 32 0x10003CE4 = none ∧
  decodeTableWord 32 0x20004001 = none ∧
  decodeTableWord 32 0x50000001 = none ∧
  decodeTableWord 32 0x00000000 = none

/-- For every command of the block whose operands are in their fields' ranges, decode (encode i) is i, with every
operand. (R81, R82, R83, R84, R92) -/
def Obligations.DecodeOfEncodeIsTheCommand : Prop :=
  ∀ i : Instr, i.wf = true → decode (encode i) = .ok i

/-- For every 32-bit word that decodes to a command, the command's operands are in range and encoding the command
gives the word back: each legal word is the one word of its command. (R81, R83, R84) -/
def Obligations.EncodeOfDecodeIsTheWord : Prop :=
  ∀ (w : Word) (i : Instr), decode w = .ok i → i.wf = true ∧ encode i = w

/-- A word decodes to no command exactly when OP is 0 or 6..15, or w[27:16] is not 0, or OP is 1 or 2 and bit 15 or
bit 7 is 1, or OP is 2 and w[6:0] is not 0, or OP is 5 and w[15:0] is not 0. Every illegal word has the one
outcome: CMD_ERR becomes 1 and nothing else changes. (R85) -/
def Obligations.WordIsIllegalExactlyWhenReserved : Prop :=
  ∀ w : Word,
    ((∃ e, decode w = .error e) ↔
      (opField w = 0 ∨ 6 ≤ opField w) ∨ w.extractLsb' 16 12 ≠ 0#12 ∨
        ((opField w = 1 ∨ opField w = 2) ∧ (w.getLsbD 15 = true ∨ w.getLsbD 7 = true)) ∨
        (opField w = 2 ∧ velField w ≠ 0) ∨ (opField w = 5 ∧ rawField w ≠ 0)) ∧
    ((∃ e, decode w = .error e) → ∀ s : State, runWord w s = .next { s with cmdErr := true })

/-- Any two rows of the opcode map that select the same word are the same row. For every word and row, decode
answers that row's command with the word's operands exactly when the row selects the word. Every word that
decodes to a command selects some row of the map, and the command is that row's. (R82) -/
def Obligations.AtMostOneRowSelectsAWord : Prop :=
  ∀ w : Word,
    (∀ r ∈ opcodeMap, ∀ r' ∈ opcodeMap, r.selects w = true → r'.selects w = true → r' = r) ∧
    (∀ r ∈ opcodeMap, r.selects w = true ↔ decode w = .ok (assembleOperands r.op w)) ∧
    (∀ i : Instr, decode w = .ok i → ∃ r ∈ opcodeMap, r.selects w = true ∧ i = assembleOperands r.op w)

/-- When the block is not halted and the host's oldest input is a command word that decodes to i, the step is exec
of i on the state without that word. (R66, R84) -/
def Obligations.StepRunsTheDecodedCommand : Prop :=
  ∀ (s : State) (w : Word) (rest : List HostInput) (i : Instr),
    s.cfgErr = false → s.inputs = .command w :: rest → decode w = .ok i →
      step s = exec i { s with inputs := rest }

/-- When the block is not halted and the host's oldest input is a word that is no command's, the step answers the
state with CMD_ERR = 1, that word gone from the queue, and every other register, sample and event as before; a
legal word behind it then runs. (R182) -/
def Obligations.IllegalWordOnlySetsCmdErr : Prop :=
  ∀ (s : State) (w : Word) (rest : List HostInput) (e : Illegal),
    s.cfgErr = false → s.inputs = .command w :: rest → decode w = .error e →
      step s = .next { s with inputs := rest, cmdErr := true } ∧
      ∀ (w' : Word) (rest' : List HostInput) (i : Instr), rest = .command w' :: rest' → decode w' = .ok i →
        Host.Core.run Sys2Proof.core 2 s = exec i { s with inputs := rest', cmdErr := true }

/-- A reset with a configuration that fails a check leaves CFG_ERR = 1 and LED = 0, emits no event, and STATUS reads
CFG_ERR = 1. That the stream before the failed reset is kept is the model's reading (log 5). A halted block
whose next input is no reset, an empty queue included, stops with the named fault halted, which is the model's
form of a block with no step (log 6). A step from a halted block to one that is not halted is a reset with a
legal configuration. (60_exceptions.md section 1, 70_reset_and_hazards.md section 1) -/
def Obligations.FailedChecksHaltTheBlock : Prop :=
  (∀ (cfg : Config) (s : State), configLegal cfg = false →
    (resetBlock cfg s).cfgErr = true ∧ (resetBlock cfg s).led = false ∧
      (resetBlock cfg s).events = s.events ∧ (readPort (resetBlock cfg s) 0#8).getLsbD 3 = true) ∧
  (∀ s : State, s.cfgErr = true → nextReset s = none → step s = .fault .halted) ∧
  (∀ s t : State, s.cfgErr = true → step s = .next t → t.cfgErr = false →
    ∃ cfg, nextReset s = some cfg ∧ configLegal cfg = true)

/-- A step that serves no reset leaves CFG_ERR as it is, and afterwards CMD_ERR is 1 exactly when it was 1 or the
accepted word is illegal. A step that serves a reset, between commands or during one, leaves CFG_ERR = 1 exactly
when the configuration fails a check, and after a legal reset CMD_ERR is 0. (R36, R188) -/
def Obligations.ErrorBitsChangeOnlyAsTheirRuleSays : Prop :=
  ∀ s t : State, step s = .next t →
    (nextReset s = none →
      t.cfgErr = s.cfgErr ∧
      (t.cmdErr = true ↔ s.cmdErr = true ∨
        ∃ w rest e, s.inputs = .command w :: rest ∧ decode w = .error e)) ∧
    (∀ cfg, nextReset s = some cfg →
      (t.cfgErr = true ↔ configLegal cfg = false) ∧ (configLegal cfg = true → t.cmdErr = false))

/-- Every step that serves no reset leaves HOLD_INDEX and the configuration unchanged. A legal reset writes
attack_time(HOLD_REF_VELOCITY), which lies in [0, ENV_LEN), and at the defaults that is 99. (R35) -/
def Obligations.HoldIndexIsConstantUntilReset : Prop :=
  (∀ s t : State, step s = .next t → nextReset s = none →
    t.holdIndex = s.holdIndex ∧ t.cfg = s.cfg) ∧
  (∀ (cfg : Config) (s : State), configLegal cfg = true →
    ((resetBlock cfg s).holdIndex.toNat : Int) = attackTime cfg cfg.holdRefVelocity ∧
      (resetBlock cfg s).holdIndex.toNat < cfg.envLen) ∧
  (∀ (n k : Nat) (waves : List (List Sample)), attackTime (defaults n k waves) 0 = 99)

/-- When the host has queued nothing and the block is not halted, a step answers the state unchanged. That the model
answers such a step at all is its own choice (log 3). (43_note_state_machine.md section 3, 60_exceptions.md
section 4) -/
def Obligations.IdleBlockHoldsItsState : Prop :=
  ∀ s : State, s.cfgErr = false → s.inputs = [] → step s = .next s

/-- When the host's oldest input is a reset, the step answers the state of the reset procedure with the reset's
configuration, whether the block is halted or not, and what is queued behind the reset stays queued. A reset
during the command of a word first abandons that command on a running block; a halted block has taken no word
and abandons nothing. That a reset is an input of the queue, and what stays queued, is the model's own choice
(log 4). (70_reset_and_hazards.md section 1, 60_exceptions.md section 1) -/
def Obligations.ResetInputRunsTheResetProcedure : Prop :=
  (∀ (s : State) (cfg : Config) (rest : List HostInput), s.inputs = .reset cfg :: rest →
    step s = .next (resetBlock cfg { s with inputs := rest }) ∧
      (resetBlock cfg { s with inputs := rest }).inputs = rest) ∧
  (∀ (s : State) (w : Word) (cfg : Config) (rest : List HostInput), s.inputs = .resetDuring w cfg :: rest →
    (s.cfgErr = false → step s = .next (resetBlock cfg (abandonWord w { s with inputs := rest }))) ∧
    (s.cfgErr = true → step s = .next (resetBlock cfg { s with inputs := rest })))

/-- When reset is asserted during the command of a word: with a legal configuration the step answers the state after
reset, whatever the block was doing and whatever part of the command took effect, with no event in the stream.
With a configuration that fails a check the block is halted, and its stream is the stream before the command
with the first of the command's events behind it, each whole: it extends the stream before and is a beginning of
the stream that the completed command leaves. On a halted block the word is not taken and the stream stays as it
is. That the stream is kept at a failed reset (log 5), and that the emitted events are the first ones (log 4),
is the model's reading. (R183, R206, 60_exceptions.md section 1, 70_reset_and_hazards.md section 1) -/
def Obligations.ResetDuringACommandAbandonsIt : Prop :=
  ∀ (s : State) (w : Word) (cfg : Config) (rest : List HostInput), s.inputs = .resetDuring w cfg :: rest →
    ∃ t, step s = .next t ∧ t.inputs = rest ∧ t.cfg = cfg ∧
      (configLegal cfg = true → t = State.afterReset cfg rest t.freeCount ∧ t.events = []) ∧
      (configLegal cfg = false → t.cfgErr = true ∧ t.led = false ∧
        (s.cfgErr = false → s.events <+: t.events ∧ ∀ u, runWord w s = .next u → t.events <+: u.events) ∧
        (s.cfgErr = true → t.events = s.events))

/-- From any state, halted or not, the reset procedure with a legal configuration leaves KNOB_A = KNOB_B = 0,
NOTE_STATE Idle, LED 0, DIAG_INDEX = DIAG_MIX = 0, CMD_ERR = CFG_ERR = 0, HOLD_INDEX =
attack_time(HOLD_REF_VELOCITY), STATUS 0x0000, that configuration and no events. CFG_ERR is 1 after a reset
exactly when a check failed. (R201) -/
def Obligations.LegalResetLeavesTheResetValues : Prop :=
  ∀ (s : State) (cfg : Config),
    ((resetBlock cfg s).cfgErr = true ↔ configLegal cfg = false) ∧
    (configLegal cfg = true →
      ∃ t, t = resetBlock cfg s ∧ t.cfg = cfg ∧ t.knobA = 0#16 ∧ t.knobB = 0#16 ∧ t.noteState = .idle ∧
        t.led = false ∧ t.diagIndex = 0#16 ∧ t.diagMix = 0#16 ∧ t.cmdErr = false ∧ t.cfgErr = false ∧
        (t.holdIndex.toNat : Int) = attackTime cfg cfg.holdRefVelocity ∧
        readPort t 0#8 = 0x0000#16 ∧ t.events = [])

/-- After a legal reset LIVE[i] is sample i of the table's row 0 for every i below S, a MIX then changes nothing at
all, ENV[i] is the value of the envelope of HOLD_REF_VELOCITY for every i below E, and HOLD_INDEX is that
velocity's attack length. At the defaults HOLD_INDEX is 99 and the envelope's segments are 99, 51 and 50
samples. (R202, R203) -/
def Obligations.LegalResetLoadsBothBuffers : Prop :=
  (∀ (cfg : Config) (s : State), configLegal cfg = true →
    (∀ i, i < cfg.sampleSize →
      ∃ row, cfg.waves[0]? = some row ∧ row[i]? = some (memRead (resetBlock cfg s) .live i)) ∧
    exec .mix (resetBlock cfg s) = .next (resetBlock cfg s) ∧
    (∀ i, i < cfg.envLen →
      (memRead (resetBlock cfg s) .env i).toInt = envValue cfg cfg.holdRefVelocity i) ∧
    ((resetBlock cfg s).holdIndex.toNat : Int) = attackTime cfg cfg.holdRefVelocity) ∧
  (∀ (n k : Nat) (waves : List (List Sample)),
    attackTime (defaults n k waves) (defaults n k waves).holdRefVelocity = 99 ∧
    sustainTime (defaults n k waves) (defaults n k waves).holdRefVelocity = 51 ∧
    releaseTime (defaults n k waves) (defaults n k waves).holdRefVelocity = 50)

/-- configLegal is true exactly when all ten conditions of the rule hold, written out. At the defaults, with any
NUM_WAVES, SAMPLE_SIZE and WAVES that meet checks 3 to 5, every check passes: the segment lengths sum to 149,
the release is at least 50 samples and attack_time(0) is 99. (R207) -/
def Obligations.ConfigurationIsLegalExactlyWhenTheChecksHold : Prop :=
  (∀ cfg : Config, configLegal cfg = true ↔
    (1 ≤ cfg.adcMax ∧ cfg.adcMax ≤ 65535) ∧
    (0 < cfg.alphaNum ∧ cfg.alphaNum < cfg.alphaDen ∧ cfg.alphaDen ≤ 65535) ∧
    (2 ≤ cfg.numWaves ∧ cfg.numWaves ≤ 65535) ∧
    (1 ≤ cfg.sampleSize ∧ cfg.sampleSize ≤ 65535) ∧
    (cfg.waves.length = cfg.numWaves ∧ ∀ row ∈ cfg.waves, row.length = cfg.sampleSize) ∧
    (1 ≤ cfg.envLen ∧ cfg.envLen ≤ 65535 ∧ cfg.atkV0 ≤ 65535 ∧ cfg.atkV127 ≤ 65535 ∧
      cfg.relV0 ≤ 65535 ∧ cfg.relV127 ≤ 65535) ∧
    (1 ≤ cfg.floorDen ∧ cfg.floorDen ≤ 65535 ∧ cfg.floorNum ≤ cfg.floorDen) ∧
    (∀ v, v ≤ 127 → attackTime cfg v + releaseTime cfg v ≤ (cfg.envLen : Int)) ∧
    (∀ v, v ≤ 127 → 2 ≤ releaseTime cfg v) ∧
    (cfg.holdRefVelocity ≤ 127 ∧ attackTime cfg cfg.holdRefVelocity < (cfg.envLen : Int))) ∧
  (∀ (n k : Nat) (waves : List (List Sample)),
    2 ≤ n → n ≤ 65535 → 1 ≤ k → k ≤ 65535 → waves.length = n → (∀ row ∈ waves, row.length = k) →
      configLegal (defaults n k waves) = true) ∧
  (∀ (n k : Nat) (waves : List (List Sample)) (v : Nat), v ≤ 127 →
    attackTime (defaults n k waves) v + releaseTime (defaults n k waves) v = 149 ∧
    50 ≤ releaseTime (defaults n k waves) v ∧ attackTime (defaults n k waves) 0 = 99)

/-- For a legal configuration and KNOB_A in [0, ADC_MAX], KNOBA answers a next state whose KNOB_A is, as an unsigned
number and with no loss by narrowing, r - trunc_div((r - s)*ALPHA_NUM, ALPHA_DEN) with r = min(RAW, ADC_MAX) and
s the old value. It stays in [0, ADC_MAX]. Every other register, flag, sample and event is as before. At the
defaults the rule's worked example comes out. A word with OP = 3 is KNOBA with RAW = w[15:0] when w[27:16] is 0
and illegal otherwise. (R101) -/
def Obligations.KnobaSmoothsItsKnob : Prop :=
  (∀ (s : State) (raw : Nat), configLegal s.cfg = true → s.knobA.toNat ≤ s.cfg.adcMax →
    ∃ t, exec (.knoba raw) s = .next t ∧ t = { s with knobA := t.knobA } ∧
      (t.knobA.toNat : Int) = min (raw : Int) s.cfg.adcMax -
        Int.tdiv ((min (raw : Int) s.cfg.adcMax - s.knobA.toNat) * s.cfg.alphaNum) s.cfg.alphaDen ∧
      t.knobA.toNat ≤ s.cfg.adcMax ∧ (∀ sp a, memRead t sp a = memRead s sp a)) ∧
  (∀ (s : State) (n k : Nat) (waves : List (List Sample)), s.cfg = defaults n k waves →
    s.knobA = 0#16 → exec (.knoba 65535) s = .next { s with knobA := 13107#16 }) ∧
  (∀ w : Word, opField w = 3 →
    (w.extractLsb' 16 12 = 0#12 → decode w = .ok (.knoba (rawField w))) ∧
    (w.extractLsb' 16 12 ≠ 0#12 → ∃ e, decode w = .error e))

/-- For a legal configuration and KNOB_B in [0, ADC_MAX], KNOBB answers a next state whose KNOB_B is, as an unsigned
number and with no loss by narrowing, r - trunc_div((r - s)*ALPHA_NUM, ALPHA_DEN) with r = min(RAW, ADC_MAX) and
s the old value. It stays in [0, ADC_MAX]. Every other register, flag, sample and event is as before. At the
defaults the rule's worked example comes out. A word with OP = 4 is KNOBB with RAW = w[15:0] when w[27:16] is 0
and illegal otherwise. (R102) -/
def Obligations.KnobbSmoothsItsKnob : Prop :=
  (∀ (s : State) (raw : Nat), configLegal s.cfg = true → s.knobB.toNat ≤ s.cfg.adcMax →
    ∃ t, exec (.knobb raw) s = .next t ∧ t = { s with knobB := t.knobB } ∧
      (t.knobB.toNat : Int) = min (raw : Int) s.cfg.adcMax -
        Int.tdiv ((min (raw : Int) s.cfg.adcMax - s.knobB.toNat) * s.cfg.alphaNum) s.cfg.alphaDen ∧
      t.knobB.toNat ≤ s.cfg.adcMax ∧ (∀ sp a, memRead t sp a = memRead s sp a)) ∧
  (∀ (s : State) (n k : Nat) (waves : List (List Sample)), s.cfg = defaults n k waves →
    s.knobB = 100#16 → exec (.knobb 96) s = .next { s with knobB := 99#16 }) ∧
  (∀ w : Word, opField w = 4 →
    (w.extractLsb' 16 12 = 0#12 → decode w = .ok (.knobb (rawField w))) ∧
    (w.extractLsb' 16 12 ≠ 0#12 → ∃ e, decode w = .error e))

/-- For s and r in [0, ADC_MAX], smooth(s, r) is r - trunc_div((r - s)*ALPHA_NUM, ALPHA_DEN), lies between s and r,
and its distance from the exact value alpha*s + (1-alpha)*r is less than 1, on the side of r: above or equal
when r > s, below or equal when r < s. The product (r - s)*ALPHA_NUM is below 2^32 in magnitude. (R103, R104) -/
def Obligations.SmoothStaysBetweenItsArguments : Prop :=
  ∀ (cfg : Config) (s r : Int), configLegal cfg = true → 0 ≤ s → s ≤ cfg.adcMax → 0 ≤ r → r ≤ cfg.adcMax →
    smooth cfg s r = r - Int.tdiv ((r - s) * cfg.alphaNum) cfg.alphaDen ∧
    min s r ≤ smooth cfg s r ∧ smooth cfg s r ≤ max s r ∧
    |smooth cfg s r * cfg.alphaDen - (cfg.alphaNum * s + (cfg.alphaDen - cfg.alphaNum) * r)| < cfg.alphaDen ∧
    (s < r → cfg.alphaNum * s + (cfg.alphaDen - cfg.alphaNum) * r ≤ smooth cfg s r * cfg.alphaDen) ∧
    (r < s → smooth cfg s r * cfg.alphaDen ≤ cfg.alphaNum * s + (cfg.alphaDen - cfg.alphaNum) * r) ∧
    |(r - s) * cfg.alphaNum| ≤ 65535 * 65535 ∧ (65535 * 65535 : Int) < 2 ^ 32

/-- Each smoothing strictly reduces the distance to r while it is not 0, and reaches r once distance*ALPHA_NUM <
ALPHA_DEN. So for every state in range and every raw operand there is a number of KNOBA (KNOBB) commands after
which KNOB_A (KNOB_B) is min(RAW, ADC_MAX) exactly and nothing else has changed. At the defaults 46 smoothings
take 0 to 65535 and 65535 to 0, and 45 do not. (R105) -/
def Obligations.RepeatedKnobCommandsReachTheSample : Prop :=
  (∀ (cfg : Config) (s r : Int), configLegal cfg = true → 0 ≤ s → s ≤ cfg.adcMax → 0 ≤ r → r ≤ cfg.adcMax →
    (s ≠ r → |r - smooth cfg s r| < |r - s|) ∧
    (|r - s| * cfg.alphaNum < cfg.alphaDen → smooth cfg s r = r)) ∧
  (∀ (s : State) (raw : Nat), configLegal s.cfg = true → s.RegistersInRange →
    (∃ n t, execAll (List.replicate n (.knoba raw)) s = .next t ∧ t = { s with knobA := t.knobA } ∧
      t.knobA.toNat = min raw s.cfg.adcMax) ∧
    (∃ n t, execAll (List.replicate n (.knobb raw)) s = .next t ∧ t = { s with knobB := t.knobB } ∧
      t.knobB.toNat = min raw s.cfg.adcMax)) ∧
  (∀ (n k : Nat) (waves : List (List Sample)),
    (fun x => smooth (defaults n k waves) x 65535)^[46] 0 = 65535 ∧
    (fun x => smooth (defaults n k waves) x 65535)^[45] 0 ≠ 65535 ∧
    (fun x => smooth (defaults n k waves) x 0)^[46] 65535 = 0 ∧
    (fun x => smooth (defaults n k waves) x 0)^[45] 65535 ≠ 0)

/-- For a legal configuration, registers in range and LIVE in canonical form, MIX answers a next state. With index =
min(floor_div((N-1)*KNOB_A, R), N-2) and m = clamp(KNOB_B, 0, R): DIAG_INDEX is index and DIAG_MIX is m, LIVE[i]
is trunc_div((R-m)*w0 + m*w1, R) for every i below S, with w0 and w1 the samples of WAVES at index*S + i and
(index+1)*S + i, and every other sample of every space, every other register and the event stream are as before.
A word with OP = 5 is MIX when w[27:0] is 0 and illegal otherwise. (R111) -/
def Obligations.MixRecomputesLive : Prop :=
  (∀ s : State, configLegal s.cfg = true → s.RegistersInRange → s.live.wf = true →
    ∃ (t : State) (index m : Int),
      index = min (Int.fdiv (((s.cfg.numWaves : Int) - 1) * s.knobA.toNat) s.cfg.adcMax) ((s.cfg.numWaves : Int) - 2) ∧
      m = min (max (s.knobB.toNat : Int) 0) s.cfg.adcMax ∧
      exec .mix s = .next t ∧
      t = { s with live := t.live, diagIndex := t.diagIndex, diagMix := t.diagMix } ∧
      (t.diagIndex.toNat : Int) = index ∧ (t.diagMix.toNat : Int) = m ∧
      (∀ i, i < s.cfg.sampleSize → (memRead t .live i).toInt =
        Int.tdiv (((s.cfg.adcMax : Int) - m) * (memRead s .waves (index.toNat * s.cfg.sampleSize + i)).toInt +
          m * (memRead s .waves ((index.toNat + 1) * s.cfg.sampleSize + i)).toInt) s.cfg.adcMax) ∧
      (∀ sp a, ¬ (sp = Space.live ∧ a < s.cfg.sampleSize) → memRead t sp a = memRead s sp a)) ∧
  (∀ w : Word, opField w = 5 →
    (w.extractLsb' 0 28 = 0#28 → decode w = .ok .mix) ∧ (w.extractLsb' 0 28 ≠ 0#28 → ∃ e, decode w = .error e))

/-- For a legal configuration, KNOB_A, KNOB_B in range and LIVE in canonical form: the wave index is in [0, N-2], so
index*S + i and (index+1)*S + i are below N*S for every i below S, and each of the two reads is the sample of
the table's row it names. The sum of products is at most R*32768 in magnitude, below 2^31, and (N-1)*KNOB_A is
below 2^32. MIX answers a next state in which LIVE[i] is the interpolation of the two samples for every i below
S and every sample outside LIVE's S samples is as it was. With another table of the same size that agrees on
rows index and index + 1, MIX writes the same: no other row is read. (R115, R116) -/
def Obligations.WaveReadsStayInsideTheTable : Prop :=
  ∀ s : State, configLegal s.cfg = true → s.RegistersInRange → s.live.wf = true →
    0 ≤ currentIndex s ∧ currentIndex s + 2 ≤ s.cfg.numWaves ∧
    (∀ i, i < s.cfg.sampleSize →
      (currentIndex s).toNat * s.cfg.sampleSize + i < spaceSize s.cfg .waves ∧
      ((currentIndex s).toNat + 1) * s.cfg.sampleSize + i < spaceSize s.cfg .waves ∧
      (∃ row, s.cfg.waves[(currentIndex s).toNat]? = some row ∧
        row[i]? = some (memRead s .waves ((currentIndex s).toNat * s.cfg.sampleSize + i))) ∧
      (∃ row, s.cfg.waves[(currentIndex s).toNat + 1]? = some row ∧
        row[i]? = some (memRead s .waves (((currentIndex s).toNat + 1) * s.cfg.sampleSize + i)))) ∧
    (∀ w0 w1 : Sample,
      |((s.cfg.adcMax : Int) - currentMix s) * w0.toInt + currentMix s * w1.toInt| ≤ s.cfg.adcMax * 32768 ∧
      (s.cfg.adcMax * 32768 : Int) < 2 ^ 31) ∧
    ((s.cfg.numWaves : Int) - 1) * s.knobA.toNat < 2 ^ 32 ∧
    (∃ t, exec .mix s = .next t ∧
      (∀ i, i < s.cfg.sampleSize → (memRead t .live i).toInt =
        Int.tdiv (((s.cfg.adcMax : Int) - currentMix s) *
            (memRead s .waves ((currentIndex s).toNat * s.cfg.sampleSize + i)).toInt +
          currentMix s * (memRead s .waves (((currentIndex s).toNat + 1) * s.cfg.sampleSize + i)).toInt)
          s.cfg.adcMax) ∧
      (∀ sp a, ¬ (sp = Space.live ∧ a < s.cfg.sampleSize) → memRead t sp a = memRead s sp a) ∧
      ∀ waves : List (List Sample),
        waves[(currentIndex s).toNat]? = s.cfg.waves[(currentIndex s).toNat]? →
        waves[(currentIndex s).toNat + 1]? = s.cfg.waves[(currentIndex s).toNat + 1]? →
          exec .mix { s with cfg := { s.cfg with waves := waves } } =
            .next { t with cfg := { s.cfg with waves := waves } })

/-- For a legal configuration, m in [0, ADC_MAX] and any two samples w0 and w1, out = trunc_div((R-m)*w0 + m*w1, R)
lies between min(w0, w1) and max(w0, w1), and the 16-bit pattern written reads back as out. (R118) -/
def Obligations.InterpolationStaysBetweenItsSamples : Prop :=
  ∀ (cfg : Config) (m : Int) (w0 w1 : Sample), configLegal cfg = true → 0 ≤ m → m ≤ cfg.adcMax →
    min w0.toInt w1.toInt ≤ interpolate cfg m w0.toInt w1.toInt ∧
    interpolate cfg m w0.toInt w1.toInt ≤ max w0.toInt w1.toInt ∧
    (narrow16 (interpolate cfg m w0.toInt w1.toInt)).toInt = interpolate cfg m w0.toInt w1.toInt

/-- For a legal configuration with registers in range and LIVE in canonical form: KNOB_A = 0 gives index 0 and
KNOB_A = ADC_MAX gives index N-2. After MIX with KNOB_B = 0 every LIVE[i] is sample i of row index, and with
KNOB_B = ADC_MAX it is sample i of row index+1. (R121) -/
def Obligations.MixEndpointsAreExact : Prop :=
  ∀ (s t : State), configLegal s.cfg = true → s.RegistersInRange → s.live.wf = true → exec .mix s = .next t →
    (s.knobA.toNat = 0 → currentIndex s = 0) ∧
    (s.knobA.toNat = s.cfg.adcMax → currentIndex s = (s.cfg.numWaves : Int) - 2) ∧
    (s.knobB.toNat = 0 → ∃ row, s.cfg.waves[(currentIndex s).toNat]? = some row ∧
      ∀ i, i < s.cfg.sampleSize → row[i]? = some (memRead t .live i)) ∧
    (s.knobB.toNat = s.cfg.adcMax → ∃ row, s.cfg.waves[(currentIndex s).toNat + 1]? = some row ∧
      ∀ i, i < s.cfg.sampleSize → row[i]? = some (memRead t .live i))

/-- For a legal configuration and 0 <= a <= b <= ADC_MAX: the index of a is at most the index of b, and likewise for
the mix numerator, which is a itself. The unclamped quotient is N-1 exactly when a = ADC_MAX and lies in [0,
N-1]. With N = 2 the index is 0. (R112, R113, R122, R123) -/
def Obligations.WaveIndexIsMonotoneAndClampedOnlyAtTheTop : Prop :=
  ∀ (cfg : Config) (a b : Int), configLegal cfg = true → 0 ≤ a → a ≤ b → b ≤ cfg.adcMax →
    mixIndex cfg a ≤ mixIndex cfg b ∧ mixNumerator cfg a ≤ mixNumerator cfg b ∧ mixNumerator cfg a = a ∧
    0 ≤ floorDiv (((cfg.numWaves : Int) - 1) * a) cfg.adcMax ∧
    floorDiv (((cfg.numWaves : Int) - 1) * a) cfg.adcMax ≤ (cfg.numWaves : Int) - 1 ∧
    (floorDiv (((cfg.numWaves : Int) - 1) * a) cfg.adcMax = (cfg.numWaves : Int) - 1 ↔ a = cfg.adcMax) ∧
    (cfg.numWaves = 2 → mixIndex cfg a = 0)

/-- For a legal configuration with registers in range and LIVE in canonical form, a MIX after a MIX answers the same
state. (R74, R120) -/
def Obligations.MixAgainChangesNothing : Prop :=
  ∀ s t : State, configLegal s.cfg = true → s.RegistersInRange → s.live.wf = true →
    exec .mix s = .next t → exec .mix t = .next t

/-- For every configuration and velocity v in [0, 127]: 127*attack_time(v) is within 127/2 of 127*ATK_V0 + (ATK_V127
- ATK_V0)*v, which fixes it, release_time(v) likewise, sustain_time(v) is ENV_LEN - attack_time(v) -
release_time(v), and for a legal configuration it is not negative. (R131, R132, R133) -/
def Obligations.SegmentLengthsAreTheNearestIntegers : Prop :=
  ∀ (cfg : Config) (v : Nat), v ≤ 127 →
    2 * |127 * attackTime cfg v - (127 * (cfg.atkV0 : Int) + ((cfg.atkV127 : Int) - cfg.atkV0) * v)| ≤ 127 ∧
    2 * |127 * releaseTime cfg v - (127 * (cfg.relV0 : Int) + ((cfg.relV127 : Int) - cfg.relV0) * v)| ≤ 127 ∧
    0 ≤ attackTime cfg v ∧ 0 ≤ releaseTime cfg v ∧
    sustainTime cfg v = (cfg.envLen : Int) - attackTime cfg v - releaseTime cfg v ∧
    (configLegal cfg = true → 0 ≤ sustainTime cfg v)

/-- For a legal configuration, v in [0, 127] and i below ENV_LEN, with A, U, L the segment lengths (A + U + L = E, L
at least 2): the value of ENV[i] is the attack formula for i < A, PEAK for A <= i < A + U, and the release
formula with j = i - A - U for i >= A + U, so the first release sample is PEAK and the last sample is 0. (R134,
R138, R139, R140) -/
def Obligations.EnvelopeFollowsItsThreeSegments : Prop :=
  ∀ (cfg : Config) (v i : Nat), configLegal cfg = true → v ≤ 127 → i < cfg.envLen →
    ∀ A U L : Int, A = attackTime cfg v → U = sustainTime cfg v → L = releaseTime cfg v →
      A + U + L = cfg.envLen ∧ 0 ≤ A ∧ 0 ≤ U ∧ 2 ≤ L ∧
      ((i : Int) < A → envValue cfg v i =
        Int.fdiv (32767 * (cfg.floorNum * A + ((cfg.floorDen : Int) - cfg.floorNum) * i)) (cfg.floorDen * A)) ∧
      (A ≤ i → (i : Int) < A + U → envValue cfg v i = 32767) ∧
      (A + U ≤ i → envValue cfg v i = Int.fdiv (32767 * (L - 1 - (i - A - U)) ^ 2) ((L - 1) ^ 2)) ∧
      ((i : Int) = A + U → envValue cfg v i = 32767) ∧
      (i + 1 = cfg.envLen → envValue cfg v i = 0)

/-- For a legal configuration, v in [0, 127] and i below ENV_LEN, the value of ENV[i] is in [0, 32767], the 16-bit
pattern written reads back as that value, and the two widest intermediates, PEAK*(L-1)^2 and PEAK*FLOOR_DEN*A,
are below 2^47. (R141) -/
def Obligations.EnvelopeSamplesAreInRange : Prop :=
  ∀ (cfg : Config) (v i : Nat), configLegal cfg = true → v ≤ 127 → i < cfg.envLen →
    0 ≤ envValue cfg v i ∧ envValue cfg v i ≤ 32767 ∧ (envSample cfg v i).toInt = envValue cfg v i ∧
    32767 * (releaseTime cfg v - 1) ^ 2 < 2 ^ 47 ∧ 32767 * (cfg.floorDen * attackTime cfg v) < 2 ^ 47

/-- If ATK_V0 >= ATK_V127 then attack_time does not rise from v to w for v <= w <= 127, and if REL_V0 <= REL_V127
then release_time does not fall. At the defaults, for every v in [0, 127]: attack_time(v) + release_time(v) =
149, sustain_time(v) = 51, attack_time(v) = 99 - round(49v/127), and attack_time runs from 99 at v = 0, 1 to 50
at v = 126, 127 while release_time runs from 50 to 99; 49v/127 is never half-way between two integers. (R137) -/
def Obligations.AttackFallsAndReleaseRisesWithVelocity : Prop :=
  (∀ (cfg : Config) (v w : Nat), v ≤ w → w ≤ 127 →
    (cfg.atkV127 ≤ cfg.atkV0 → attackTime cfg w ≤ attackTime cfg v) ∧
    (cfg.relV0 ≤ cfg.relV127 → releaseTime cfg v ≤ releaseTime cfg w)) ∧
  (∀ (n k : Nat) (waves : List (List Sample)) (v : Nat), v ≤ 127 →
    attackTime (defaults n k waves) v + releaseTime (defaults n k waves) v = 149 ∧
    sustainTime (defaults n k waves) v = 51 ∧
    attackTime (defaults n k waves) v = 99 - roundHalfEven (49 * v) 127 ∧
    releaseTime (defaults n k waves) v = 50 + roundHalfEven (49 * v) 127 ∧
    2 * (49 * v) % (2 * 127) ≠ 127 ∧
    (v ≤ 1 → attackTime (defaults n k waves) v = 99) ∧ (126 ≤ v → attackTime (defaults n k waves) v = 50))

/-- At the defaults attack_time(v) <= 99 < attack_time(v) + sustain_time(v) for every v in [0, 127]. With
HOLD_REF_VELOCITY = 10 the hold index is 95, which for v in [1, 9] is below attack_time(v), and the envelope
sample there is below PEAK. (R144, R211) -/
def Obligations.HoldIndexLiesInEverySustainRegionAtTheDefaults : Prop :=
  ∀ (n k : Nat) (waves : List (List Sample)),
    (∀ v, v ≤ 127 → attackTime (defaults n k waves) v ≤ (resetHoldIndex (defaults n k waves)).toNat ∧
      ((resetHoldIndex (defaults n k waves)).toNat : Int) <
        attackTime (defaults n k waves) v + sustainTime (defaults n k waves) v) ∧
    (∀ cfg : Config, cfg = { defaults n k waves with holdRefVelocity := 10 } →
      (resetHoldIndex cfg).toNat = 95 ∧
      ∀ v, 1 ≤ v → v ≤ 9 → (95 : Int) < attackTime cfg v ∧ envValue cfg v 95 < 32767)

/-- For a legal configuration with ENV in canonical form, NOTE k in [0, 127] and VEL v in [1, 127], NOTEON answers a
next state: ENV[i] holds the value of the v envelope for every i below E, the events ENV_INSTALL(HOLD_INDEX) and
PRESS(k) are appended in that order, LED is 1, NOTE_STATE is Sounding(k). Every other register and every sample
outside ENV's E samples is as before, whatever the note state was. With VEL 0 NOTEON is the release of k. (R152) -/
def Obligations.NoteonWithVelocityPresses : Prop :=
  (∀ (s : State) (k v : Nat), configLegal s.cfg = true → s.env.wf = true → k ≤ 127 → 0 < v → v ≤ 127 →
    ∃ (t : State) (n : Note), n.toNat = k ∧ exec (.noteon k v) s = .next t ∧
      t = { s with env := t.env, events := s.events ++ [.envInstall s.holdIndex, .press n], led := true,
                   noteState := .sounding n } ∧
      (∀ i, i < s.cfg.envLen → (memRead t .env i).toInt = envValue s.cfg v i) ∧
      (∀ sp a, ¬ (sp = Space.env ∧ a < s.cfg.envLen) → memRead t sp a = memRead s sp a)) ∧
  (∀ (s : State) (k : Nat), exec (.noteon k 0) s = .next (releaseSequence k s))

/-- In every state NOTEON k, 0 and NOTEOFF k answer the same next state, and its ENV is the ENV before. (R153) -/
def Obligations.NoteonWithVelocityZeroIsNoteoff : Prop :=
  ∀ (s : State) (k : Nat), ∃ t, exec (.noteon k 0) s = .next t ∧ exec (.noteoff k) s = .next t ∧ t.env = s.env

/-- For NOTE k in [0, 127], NOTEOFF k answers a next state in every state: RELEASE_THEN_PRESS(k) is appended, LED is
0, NOTE_STATE becomes Idle if it was Sounding(k) and is otherwise unchanged. Every other register, every sample
and HOLD_INDEX are as before. A word with OP = 2 is NOTEOFF with NOTE = w[14:8] when w[27:15] and w[7:0] are 0
and illegal otherwise. (R154, R155) -/
def Obligations.NoteoffReleasesTheNamedNote : Prop :=
  (∀ (s : State) (k : Nat), k ≤ 127 →
    ∃ (t : State) (n : Note), n.toNat = k ∧ exec (.noteoff k) s = .next t ∧
      t = { s with events := s.events ++ [.releaseThenPress n], led := false, noteState := t.noteState } ∧
      (∀ m : Note, s.noteState = .sounding m → m.toNat = k → t.noteState = .idle) ∧
      (∀ m : Note, s.noteState = .sounding m → m.toNat ≠ k → t.noteState = s.noteState) ∧
      (s.noteState = .idle → t.noteState = .idle) ∧
      (∀ sp a, memRead t sp a = memRead s sp a)) ∧
  (∀ w : Word, opField w = 2 →
    (w.extractLsb' 15 13 = 0#13 → w.extractLsb' 0 8 = 0#8 → decode w = .ok (.noteoff (noteField w))) ∧
    (w.extractLsb' 15 13 ≠ 0#13 ∨ w.extractLsb' 0 8 ≠ 0#8 → ∃ e, decode w = .error e))

/-- In Sounding(n), NOTEON k, v with v in [1, 127] appends no RELEASE_THEN_PRESS and ends in Sounding(k), k = n
included. If k is not n, a following NOTEOFF n leaves Sounding(k) and clears LED. (R157, R158) -/
def Obligations.RetriggerReplacesTheNoteWithoutARelease : Prop :=
  ∀ (s : State) (n : Note) (k v : Nat), s.noteState = .sounding n → k ≤ 127 → 0 < v → v ≤ 127 →
    ∃ (t : State) (m : Note) (es : List Event), m.toNat = k ∧ exec (.noteon k v) s = .next t ∧
      t.events = s.events ++ es ∧ (∀ x, Event.releaseThenPress x ∉ es) ∧ t.noteState = .sounding m ∧ t.led = true ∧
      (n.toNat ≠ k → ∃ u, exec (.noteoff n.toNat) t = .next u ∧ u.noteState = .sounding m ∧ u.led = false)

/-- From any state in Idle with a legal configuration and ENV in canonical form, the three commands end in Idle with
LED 0, the v = 90 envelope in ENV, and exactly the events ENV_INSTALL(HOLD_INDEX), PRESS(60),
ENV_INSTALL(HOLD_INDEX), PRESS(64), RELEASE_THEN_PRESS(64) appended; none of them releases 60. (R160) -/
def Obligations.OverlappingNotesSequence : Prop :=
  ∀ s : State, configLegal s.cfg = true → s.env.wf = true → s.noteState = .idle →
    ∃ t, execAll [.noteon 60 100, .noteon 64 90, .noteoff 64] s = .next t ∧
      t.events = s.events ++ [.envInstall s.holdIndex, .press 60#7, .envInstall s.holdIndex, .press 64#7,
        .releaseThenPress 64#7] ∧
      Event.releaseThenPress 60#7 ∉ t.events.drop s.events.length ∧
      t.noteState = .idle ∧ t.led = false ∧
      (∀ i, i < s.cfg.envLen → (memRead t .env i).toInt = envValue s.cfg 90 i)

/-- No command faults or is refused in any state: exec always answers a next state. (R180, R214) -/
def Obligations.EveryCommandCompletes : Prop :=
  ∀ (i : Instr) (s : State), ∃ t, exec i s = .next t

/-- When a command answers a next state: configuration, HOLD_INDEX, CMD_ERR, CFG_ERR and the queue are unchanged;
KNOB_A changes only by KNOBA and KNOB_B only by KNOBB; LIVE, DIAG_INDEX and DIAG_MIX change only by MIX; ENV
changes only by NOTEON with velocity above 0; NOTE_STATE, LED and the event stream change only by NOTEON or
NOTEOFF. KNOBA, KNOBB, NOTEOFF and NOTEON with velocity 0 leave every sample of every space as it was. (R30,
R65, R173, 10_state.md section 1) -/
def Obligations.EachCommandChangesOnlyItsOwnState : Prop :=
  ∀ (i : Instr) (s t : State), exec i s = .next t →
    t.cfg = s.cfg ∧ t.holdIndex = s.holdIndex ∧ t.cmdErr = s.cmdErr ∧ t.cfgErr = s.cfgErr ∧
    t.inputs = s.inputs ∧ t.freeCount = s.freeCount ∧
    (t.knobA ≠ s.knobA → ∃ raw, i = .knoba raw) ∧
    (t.knobB ≠ s.knobB → ∃ raw, i = .knobb raw) ∧
    (t.live ≠ s.live ∨ t.diagIndex ≠ s.diagIndex ∨ t.diagMix ≠ s.diagMix → i = .mix) ∧
    (t.env ≠ s.env → ∃ k v, i = .noteon k v ∧ 0 < v) ∧
    (t.noteState ≠ s.noteState ∨ t.led ≠ s.led ∨ t.events ≠ s.events →
      ∃ k, i = .noteoff k ∨ ∃ v, i = .noteon k v) ∧
    ((∃ raw, i = .knoba raw ∨ i = .knobb raw) ∨ (∃ k, i = .noteoff k ∨ i = .noteon k 0) →
      ∀ sp a, memRead t sp a = memRead s sp a)

/-- When a command answers a next state, the stream has grown by nothing, by one RELEASE_THEN_PRESS, or by
ENV_INSTALL(HOLD_INDEX) and a PRESS. LED is then unchanged, 0, or 1. Reset leaves LED 0. (R34) -/
def Obligations.LedFollowsTheEmittedEvents : Prop :=
  (∀ (i : Instr) (s t : State), exec i s = .next t →
    (t.events = s.events ∧ t.led = s.led) ∨
    (∃ n, t.events = s.events ++ [.releaseThenPress n] ∧ t.led = false) ∨
    (∃ n, t.events = s.events ++ [.envInstall s.holdIndex, .press n] ∧ t.led = true)) ∧
  (∀ (cfg : Config) (s : State), (resetBlock cfg s).led = false)

/-- If a state meets the invariant and a step from it answers a next state, that state meets it too. The invariant
says, of a running block: the configuration is legal, every register is in its range, HOLD_INDEX is the
reference velocity's attack length, both buffers are canonical and inside their spaces, ENV holds one velocity's
whole envelope, LIVE is the MIX of the diagnostic snapshot, LED is lit only while a note is tracked, and every
PRESS stands right behind an ENV_INSTALL of HOLD_INDEX; and of a halted one: the configuration is illegal, LED
is 0 and the buffers are canonical. (10_state.md section 1, 10_state.md section 3, R63, R204) -/
def Obligations.StepKeepsTheInvariant : Prop :=
  ∀ s t : State, s.Inv → step s = .next t → t.Inv

/-- State.reset, whose NUM_WAVES, SAMPLE_SIZE and WAVES are free values, meets the invariant. (R200, R201) -/
def Obligations.ResetStateMeetsTheInvariant : Prop :=
  State.reset.Inv

/-- For every configuration, legal or not, and every state, in the invariant or not, the state after the reset
procedure meets the invariant; after a legal reset, two states with the same queue and the same count of free
values drawn are the same state. (R200, R206) -/
def Obligations.EveryResetEstablishesTheInvariant : Prop :=
  (∀ (cfg : Config) (s : State), (resetBlock cfg s).Inv) ∧
  (∀ (cfg : Config) (s s' : State), configLegal cfg = true → s.inputs = s'.inputs → s.freeCount = s'.freeCount →
    resetBlock cfg s = resetBlock cfg s')

/-- For every list of well-formed commands and every running block with an empty queue, as many steps as there are
commands, from the state with the commands' words queued, answer the state that running the commands one after
another answers. (R66, R80, R84, R92) -/
def Obligations.SentCommandsRunInOrder : Prop :=
  ∀ (cmds : List Instr) (s t : State), s.cfgErr = false → s.inputs = [] → (∀ i ∈ cmds, i.wf = true) →
    execAll cmds s = .next t → Host.Core.run Sys2Proof.core cmds.length (sendCommands cmds s) = .next t

/-- For every optional note event and raw samples, from a legal configuration with registers in range and LIVE in
canonical form, the CYCLE's commands answer a next state whose DIAG_INDEX and DIAG_MIX are the index and
numerator of the new KNOB_A and KNOB_B and whose LIVE is the MIX of them; the new knobs are the old ones
smoothed once; KNOBB before KNOBA gives the same state. (R171, R173) -/
def Obligations.CycleMixesTheKnobsItSmoothed : Prop :=
  ∀ (s : State) (ev : Option MidiEvent) (rawA rawB : Nat), configLegal s.cfg = true → s.RegistersInRange →
    s.live.wf = true →
    ∃ t, execAll (cycleCommands ev rawA rawB) s = .next t ∧
      t.knobA = smoothedKnob s.cfg s.knobA rawA ∧ t.knobB = smoothedKnob s.cfg s.knobB rawB ∧
      (t.diagIndex.toNat : Int) = mixIndex s.cfg t.knobA.toNat ∧ (t.diagMix.toNat : Int) = t.knobB.toNat ∧
      (∀ i, i < s.cfg.sampleSize →
        memRead t .live i = mixSample s.cfg (mixIndex s.cfg t.knobA.toNat) t.knobB.toNat i) ∧
      execAll [.knoba rawA, .knobb rawB] s = execAll [.knobb rawB, .knoba rawA] s

/-- If a state is the result of a MIX, with a legal configuration, registers in range and LIVE in canonical form,
the CYCLE with no event whose raw samples are KNOB_A and KNOB_B answers that same state: every register, sample
and event as before. (R176) -/
def Obligations.UnchangedCycleIsIdempotent : Prop :=
  ∀ s t : State, configLegal s.cfg = true → s.RegistersInRange → s.live.wf = true → exec .mix s = .next t →
    execAll (cycleCommands none t.knobA.toNat t.knobB.toNat) t = .next t

/-- For every command and every state, exec answers the state that the command's list of actions leaves when applied
in order, and the same holds of every accepted word, an illegal one included. The order is the rule's. MIX
stores to LIVE[0] up to LIVE[S-1], ascending, then writes DIAG_INDEX and DIAG_MIX. NOTEON with velocity above 0
stores to ENV[0] up to ENV[E-1], ascending, then emits ENV_INSTALL and PRESS, then writes LED and NOTE_STATE.
NOTEOFF, and NOTEON with velocity 0, emit RELEASE_THEN_PRESS, then write LED and NOTE_STATE. KNOBA and KNOBB are
one write each, an illegal word is the write of CMD_ERR. (R15, R66, R67, R119, R142) -/
def Obligations.ActionsMakeTheCommand : Prop :=
  (∀ (i : Instr) (s : State), exec i s = .next (applyActions (commandActions s i) s)) ∧
  (∀ (w : Word) (s : State), runWord w s = .next (applyActions (wordActions s w) s)) ∧
  (∀ s : State, ∃ (f : Nat → Sample) (index m : Reg16), commandActions s .mix =
    ((List.range s.cfg.sampleSize).map fun i => Action.store .live i (f i)) ++
      [.setDiagIndex index, .setDiagMix m]) ∧
  (∀ (s : State) (k v : Nat), 0 < v → ∃ (f : Nat → Sample) (n : Note), commandActions s (.noteon k v) =
    ((List.range s.cfg.envLen).map fun i => Action.store .env i (f i)) ++
      [.emit (.envInstall s.holdIndex), .emit (.press n), .setLed true, .setNoteState (.sounding n)]) ∧
  (∀ (s : State) (k : Nat), ∃ (n : Note) (x : NoteState),
    commandActions s (.noteoff k) = [.emit (.releaseThenPress n), .setLed false, .setNoteState x] ∧
    commandActions s (.noteon k 0) = commandActions s (.noteoff k)) ∧
  (∀ (s : State) (raw : Nat), ∃ a b : Reg16,
    commandActions s (.knoba raw) = [.setKnobA a] ∧ commandActions s (.knobb raw) = [.setKnobB b]) ∧
  (∀ (s : State) (w : Word), (∃ e, decode w = .error e) → wordActions s w = [.setCmdErr])

/-- For every command with a next state, and every sample of LIVE or ENV, buffers in canonical form: a value is
admitted for a read during the command, before any of its events is received, exactly when it is the sample
before the command or the sample after it. Out of the buffer's range that value is 0, of which R63 says 'This is
the spec's own choice', and for which it lets a model take a fault instead (log 2). (R63, R64) -/
def Obligations.RacingReadReturnsOldOrNew : Prop :=
  ∀ (i : Instr) (s t : State) (b : Buffer) (a : Nat) (v : Sample),
    s.live.wf = true → s.env.wf = true → exec i s = .next t →
      (v ∈ readsDuring s (commandActions s i) 0 b a ↔ v = rendererRead s b a ∨ v = rendererRead t b a) ∧
      (spaceSize s.cfg b.space ≤ a → rendererRead s b a = 0#16 ∧ rendererRead t b a = 0#16)

/-- For NOTEON k, v with v in [1, 127], a legal configuration, ENV in canonical form and i below E: once the
renderer has received at least one of the command's events, the one admitted value of a read of ENV[i] during
the rest of the command is the value of the v envelope. ENV_INSTALL is the first event of the command and PRESS
the second. (R67, R68, R212) -/
def Obligations.InstallMeansTheEnvelopeIsComplete : Prop :=
  ∀ (s : State) (k v i n : Nat), configLegal s.cfg = true → s.env.wf = true → 0 < v → v ≤ 127 →
    i < s.cfg.envLen → 1 ≤ n →
      readsDuring s (commandActions s (.noteon k v)) n .env i = [envSample s.cfg v i] ∧
      (envSample s.cfg v i).toInt = envValue s.cfg v i ∧
      (commandActions s (.noteon k v)).filterMap (fun a => match a with | .emit e => some e | _ => none) =
        [.envInstall s.holdIndex, .press (noteOperand k)]

/-- After a MIX, with a legal configuration, registers in range and LIVE in canonical form, every value admitted for
a read of LIVE during the next MIX is the value the read returned before it. (R120, R210) -/
def Obligations.UnchangedMixIsInvisibleToTheRenderer : Prop :=
  ∀ (s t : State) (a : Nat) (v : Sample), configLegal s.cfg = true → s.RegistersInRange → s.live.wf = true →
    exec .mix s = .next t → v ∈ readsDuring t (commandActions t .mix) 0 .live a → v = rendererRead t .live a

/-- While the block serves a reset, between commands or during one, every value of 16 bits is admitted for every
read of LIVE, ENV and HOLD_INDEX, and so it is while a halted block is at rest or is offered a word, since its
reset has not completed (log 18). A running block at rest admits the sample alone, and HOLD_INDEX alone while it
runs a word. While it runs a word, the admitted values of a sample are those of the word's actions.
(70_reset_and_hazards.md section 2, R181, R208) -/
def Obligations.ReadsBeforeResetCompletesAreUnspecified : Prop :=
  (∀ (s : State) (input : HostInput) (n : Nat) (b : Buffer) (a : Nat) (v : Sample),
    (input.resetConfig ≠ none ∨ s.cfgErr = true) →
      v ∈ readsServing s input n b a ∧ v ∈ holdReadsServing s input) ∧
  (∀ (s : State) (b : Buffer) (a : Nat) (v : Sample),
    (s.cfgErr = true → v ∈ readsAtRest s b a) ∧
    (s.cfgErr = false → (v ∈ readsAtRest s b a ↔ v = rendererRead s b a))) ∧
  (∀ (s : State) (w : Word) (n : Nat) (b : Buffer) (a : Nat), s.cfgErr = false →
    readsServing s (.command w) n b a = readsDuring s (wordActions s w) n b a ∧
    holdReadsServing s (.command w) = [s.holdIndex])

/-- In every state: STATUS has SOUNDING in bit 0, LED in bit 1, CMD_ERR in bit 2, CFG_ERR in bit 3, NOTE (0 when
Idle) in bits 14 to 8 and 0 in bits 7 to 4 and 15; numbers 1 to 5 return KNOB_A, KNOB_B, HOLD_INDEX, DIAG_INDEX
and DIAG_MIX; every number from 6 on returns 0. (R39) -/
def Obligations.ReadPortFollowsTheRegisterMap : Prop :=
  ∀ s : State,
    ((readPort s 0#8).getLsbD 0 = true ↔ ∃ n, s.noteState = .sounding n) ∧
    (readPort s 0#8).getLsbD 1 = s.led ∧ (readPort s 0#8).getLsbD 2 = s.cmdErr ∧
    (readPort s 0#8).getLsbD 3 = s.cfgErr ∧ (readPort s 0#8).extractLsb' 4 4 = 0#4 ∧
    (readPort s 0#8).getLsbD 15 = false ∧
    (∀ n, s.noteState = .sounding n → (readPort s 0#8).extractLsb' 8 7 = n) ∧
    (s.noteState = .idle → (readPort s 0#8).extractLsb' 8 7 = 0#7) ∧
    readPort s 1#8 = s.knobA ∧ readPort s 2#8 = s.knobB ∧ readPort s 3#8 = s.holdIndex ∧
    readPort s 4#8 = s.diagIndex ∧ readPort s 5#8 = s.diagMix ∧
    (∀ number : BitVec 8, 6 ≤ number.toNat → readPort s number = 0#16) ∧
    (∀ cfg : Config, configLegal cfg = true → readPort (resetBlock cfg s) 0#8 = 0x0000#16)

/-- The word of ENV_INSTALL(h) has 1 in bits 31 to 28, 0 in bits 27 to 16 and h in bits 15 to 0; that of PRESS(k)
has 2, and that of RELEASE_THEN_PRESS(k) has 3, in bits 31 to 28, k in bits 14 to 8 and 0 elsewhere. They stand
for the engine operations with the singleton {k} and the empty set. Two events with one word are the same event.
(R90) -/
def Obligations.EventWordsCarryTheirFields : Prop :=
  (∀ h : Reg16, (Event.word (.envInstall h)).extractLsb' 28 4 = 1#4 ∧
    (Event.word (.envInstall h)).extractLsb' 16 12 = 0#12 ∧ (Event.word (.envInstall h)).extractLsb' 0 16 = h ∧
    Event.operation (.envInstall h) = .installEnvelope h.toNat) ∧
  (∀ n : Note, (Event.word (.press n)).extractLsb' 28 4 = 2#4 ∧
    (Event.word (.press n)).extractLsb' 15 13 = 0#13 ∧ (Event.word (.press n)).extractLsb' 8 7 = n ∧
    (Event.word (.press n)).extractLsb' 0 8 = 0#8 ∧ Event.operation (.press n) = .press [n.toNat]) ∧
  (∀ n : Note, (Event.word (.releaseThenPress n)).extractLsb' 28 4 = 3#4 ∧
    (Event.word (.releaseThenPress n)).extractLsb' 15 13 = 0#13 ∧
    (Event.word (.releaseThenPress n)).extractLsb' 8 7 = n ∧
    (Event.word (.releaseThenPress n)).extractLsb' 0 8 = 0#8 ∧
    Event.operation (.releaseThenPress n) = .releaseThenPress [n.toNat] []) ∧
  (∀ e e' : Event, Event.word e = Event.word e' → e = e')

/-- For every line other than .word: it assembles exactly when every operand is in its field's range, and is a range
error otherwise; the words it assembles to decode, one by one, to the commands the line stands for, pseudo-
instructions expanded. A blank line stands for no command and assembles to no word, and a .word line assembles
to its value exactly when that is below 2^32 and is a range error otherwise: these two are the model's own
choice (log 11). The statement is about lines already read; TextLinesReadAsTheirForm is about the text. (R92,
R93) -/
def Obligations.AssembledWordsDecodeToTheLine : Prop :=
  (∀ line : AsmLine, (∀ value, line ≠ .word value) →
    ((∀ i ∈ lineCommands line, i.wf = true) →
      ∃ words, assembleLine line = .ok words ∧ words.map decode = (lineCommands line).map Except.ok) ∧
    ((∃ i ∈ lineCommands line, i.wf = false) → assembleLine line = .error .operandRange)) ∧
  (∀ value : Nat, (∀ w : Word, assembleLine (.word value) = .ok [w] ↔ w.toNat = value) ∧
    (2 ^ 32 ≤ value → assembleLine (.word value) = .error .operandRange))

/-- Every form of the syntax and of the pseudo-instructions, written in lower case with each operand a list of
decimal digits or 0x and a list of hexadecimal digits, in any number of digits, reads as that form with the
numbers the digits write. A comment behind a line changes nothing, nor does the case of the letters. A blank
line, and one with a comment only, reads as no command. R92 says of mnemonics that they are case-insensitive;
that the hexadecimal digits and the 0x of an operand are so too is the model's own choice (log 11), and so are
leading zeros, what counts as white space, that it may stand at a comma and at the ends, and the blank line.
(R92, R93, 30_encoding.md section 6) -/
def Obligations.TextLinesReadAsTheirForm : Prop :=
  (∀ a b c d : Numeral,
    readLine (['n', 'o', 't', 'e', 'o', 'n', ' '] ++ a.text ++ [',', ' '] ++ b.text) = .ok (.command (.noteon
      a.value b.value)) ∧
    readLine (['n', 'o', 't', 'e', 'o', 'f', 'f', ' '] ++ a.text) = .ok (.command (.noteoff a.value)) ∧
    readLine (['k', 'n', 'o', 'b', 'a', ' '] ++ a.text) = .ok (.command (.knoba a.value)) ∧
    readLine (['k', 'n', 'o', 'b', 'b', ' '] ++ a.text) = .ok (.command (.knobb a.value)) ∧
    readLine ['m', 'i', 'x'] = .ok (.command .mix) ∧
    readLine (['.', 'w', 'o', 'r', 'd', ' '] ++ a.text) = .ok (.word a.value) ∧
    readLine (['n', 'o', 't', 'e', 'o', 'f', 'f', '0', ' '] ++ a.text) = .ok (.noteoff0 a.value) ∧
    readLine (['c', 'y', 'c', 'l', 'e', ' '] ++ a.text ++ [',', ' '] ++ b.text) = .ok (.cycle none a.value b.value) ∧
    readLine (['c', 'y', 'c', 'l', 'e', ' ', 'n', 'o', 't', 'e', 'o', 'n', ' '] ++ a.text ++ [',', ' '] ++
      b.text ++ [',', ' '] ++ c.text ++ [',', ' '] ++
      d.text) = .ok (.cycle (some (.noteOn a.value b.value)) c.value d.value) ∧
    readLine (['c', 'y', 'c', 'l', 'e', ' ', 'n', 'o', 't', 'e', 'o', 'f', 'f', ' '] ++ a.text ++ [',', ' '] ++
      b.text ++ [',', ' '] ++ c.text) =
      .ok (.cycle (some (.noteOff a.value)) b.value c.value)) ∧
  (∀ l comment : List Char, readLine (l ++ ';' :: comment) = readLine l) ∧
  (∀ l : List Char, readLine (l.map Char.toUpper) = readLine l) ∧
  (∀ l : List Char, (∀ c ∈ l, isBlankChar c = true) → readLine l = .ok .blank)
end

