-- ==== Sys2Proof/Laws/Memory.lean ====
section
/-! SUPPORT. The laws of a sample space: read after write, the canonical form kept, equal reads are equal spaces. -/

namespace Sys2Proof.Laws

open Sys2Proof.Machine

theorem consCell_read (a : Nat) (v : Sample) (rest : Memory) (b : Nat)
    (h : b = a → rest.read a = Memory.unlisted) :
    (Memory.consCell a v rest).read b = if b = a then v else rest.read b := by
  unfold Memory.consCell
  split
  · split
    · subst_vars; exact h rfl
    · rfl
  · rfl

theorem read_of_all_above {m : Memory} {a : Nat} (h : m.all (fun c => decide (a < c.1)) = true) :
    m.read a = Memory.unlisted := by
  induction m with
  | nil => rfl
  | cons c rest ih =>
    obtain ⟨b, u⟩ := c
    simp only [List.all_cons, Bool.and_eq_true, decide_eq_true_eq] at h
    have hne : a ≠ b := by omega
    simp only [Memory.read, if_neg hne]
    exact ih h.2

theorem all_above_mono {m : Memory} {a b : Nat} (hab : a ≤ b)
    (h : m.all (fun c => decide (b < c.1)) = true) : m.all (fun c => decide (a < c.1)) = true := by
  simp only [List.all_eq_true, decide_eq_true_eq] at h ⊢
  intro c hc
  have := h c hc
  omega

theorem wf_cons {a : Nat} {v : Sample} {rest : Memory} :
    Memory.wf ((a, v) :: rest) = true ↔
      v ≠ Memory.unlisted ∧ rest.all (fun c => decide (a < c.1)) = true ∧ rest.wf = true := by
  simp only [Memory.wf, Bool.and_eq_true, bne_iff_ne, ne_eq, and_assoc]

/-- What a write does to every read: the written index reads as the written sample, every other as before. -/
theorem read_write {m : Memory} (hm : m.wf = true) (a : Nat) (v : Sample) (b : Nat) :
    (m.write a v).read b = if b = a then v else m.read b := by
  induction m with
  | nil => exact consCell_read a v [] b (fun _ => rfl)
  | cons c rest ih =>
    obtain ⟨x, u⟩ := c
    obtain ⟨_, habove, hrest⟩ := wf_cons.1 hm
    simp only [Memory.write]
    split
    · rename_i hlt
      refine consCell_read a v _ b (fun _ => ?_)
      have hne : a ≠ x := by omega
      simp only [Memory.read, if_neg hne]
      exact read_of_all_above (all_above_mono (by omega) habove)
    · split
      · rename_i heq
        subst heq
        rw [consCell_read a v rest b (fun _ => read_of_all_above habove)]
        split
        · rfl
        · rename_i hne
          simp only [Memory.read, if_neg hne]
      · rename_i hnlt hne
        simp only [Memory.read, ih hrest]
        by_cases hbx : b = x
        · subst hbx
          have : ¬ b = a := fun h => hne h.symm
          simp only [if_true, if_neg this]
        · simp only [if_neg hbx]

theorem consCell_all {a : Nat} {v : Sample} {rest : Memory} {x : Nat} (hx : x < a)
    (h : rest.all (fun c => decide (x < c.1)) = true) :
    (Memory.consCell a v rest).all (fun c => decide (x < c.1)) = true := by
  unfold Memory.consCell
  split
  · exact h
  · simp only [List.all_cons, Bool.and_eq_true, decide_eq_true_eq]
    exact ⟨hx, h⟩

theorem write_all_above {m : Memory} {a : Nat} {v : Sample} {x : Nat} (hx : x < a)
    (h : m.all (fun c => decide (x < c.1)) = true) :
    (m.write a v).all (fun c => decide (x < c.1)) = true := by
  induction m with
  | nil => exact consCell_all hx h
  | cons c rest ih =>
    obtain ⟨b, u⟩ := c
    have h' := h
    simp only [List.all_cons, Bool.and_eq_true, decide_eq_true_eq] at h'
    simp only [Memory.write]
    split
    · exact consCell_all hx h
    · split
      · exact consCell_all hx h'.2
      · simp only [List.all_cons, Bool.and_eq_true, decide_eq_true_eq]
        exact ⟨h'.1, ih h'.2⟩

theorem consCell_wf {a : Nat} {v : Sample} {rest : Memory}
    (h : rest.all (fun c => decide (a < c.1)) = true) (hr : rest.wf = true) :
    (Memory.consCell a v rest).wf = true := by
  unfold Memory.consCell
  split
  · exact hr
  · exact wf_cons.2 ⟨by assumption, h, hr⟩

/-- A write keeps the canonical form. -/
theorem write_wf {m : Memory} (hm : m.wf = true) (a : Nat) (v : Sample) : (m.write a v).wf = true := by
  induction m with
  | nil => exact consCell_wf rfl rfl
  | cons c rest ih =>
    obtain ⟨b, u⟩ := c
    obtain ⟨hu, habove, hrest⟩ := wf_cons.1 hm
    simp only [Memory.write]
    split
    · rename_i hlt
      refine consCell_wf ?_ hm
      simp only [List.all_cons, Bool.and_eq_true, decide_eq_true_eq]
      exact ⟨hlt, all_above_mono (by omega) habove⟩
    · split
      · rename_i heq
        subst heq
        exact consCell_wf habove hrest
      · rename_i hnlt hne
        exact wf_cons.2 ⟨hu, write_all_above (by omega) habove, ih hrest⟩

theorem consCell_within {n a : Nat} {v : Sample} {rest : Memory} (ha : a < n)
    (h : Memory.within n rest = true) : Memory.within n (Memory.consCell a v rest) = true := by
  unfold Memory.consCell
  split
  · exact h
  · simp only [Memory.within, List.all_cons, Bool.and_eq_true, decide_eq_true_eq]
    exact ⟨ha, h⟩

/-- A write inside the space lists no index outside it. -/
theorem write_within {n : Nat} {m : Memory} (hm : m.within n = true) {a : Nat} (ha : a < n) (v : Sample) :
    (m.write a v).within n = true := by
  induction m with
  | nil => exact consCell_within ha rfl
  | cons c rest ih =>
    obtain ⟨b, u⟩ := c
    have h' := hm
    simp only [Memory.within, List.all_cons, Bool.and_eq_true, decide_eq_true_eq] at h'
    simp only [Memory.write]
    split
    · exact consCell_within ha hm
    · split
      · exact consCell_within ha h'.2
      · simp only [Memory.within, List.all_cons, Bool.and_eq_true, decide_eq_true_eq]
        exact ⟨h'.1, ih h'.2⟩

/-- An index outside the space reads as unlisted. -/
theorem read_outside {n : Nat} {m : Memory} (hm : m.within n = true) {a : Nat} (ha : n ≤ a) :
    m.read a = Memory.unlisted := by
  induction m with
  | nil => rfl
  | cons c rest ih =>
    obtain ⟨b, u⟩ := c
    simp only [Memory.within, List.all_cons, Bool.and_eq_true, decide_eq_true_eq] at hm
    have hne : a ≠ b := by omega
    simp only [Memory.read, if_neg hne]
    exact ih hm.2

/-- A whole rewrite keeps the canonical form. -/
theorem writeSeq_wf {m : Memory} (hm : m.wf = true) (f : Nat → Sample) (n : Nat) :
    (m.writeSeq f n).wf = true := by
  induction n with
  | zero => exact hm
  | succ n ih => exact write_wf ih n (f n)

/-- A whole rewrite of at most n samples stays inside a space of n samples. -/
theorem writeSeq_within {n : Nat} {m : Memory} (hm : m.within n = true) (f : Nat → Sample) {k : Nat}
    (hk : k ≤ n) : (m.writeSeq f k).within n = true := by
  induction k with
  | zero => exact hm
  | succ k ih => exact write_within (ih (by omega)) (by omega) (f k)

/-- What a whole rewrite does to every read: index i below n reads as f i, every other as before. -/
theorem read_writeSeq {m : Memory} (hm : m.wf = true) (f : Nat → Sample) (n a : Nat) :
    (m.writeSeq f n).read a = if a < n then f a else m.read a := by
  induction n with
  | zero => rfl
  | succ n ih =>
    rw [Memory.writeSeq, read_write (writeSeq_wf hm f n), ih]
    by_cases h1 : a = n
    · subst h1
      simp
    · by_cases h2 : a < n
      · rw [if_neg h1, if_pos h2, if_pos (by omega)]
      · rw [if_neg h1, if_neg h2, if_neg (by omega)]

/-- Two spaces in canonical form with the same reads are the same space. -/
theorem eq_of_read_eq {m₁ m₂ : Memory} (h₁ : m₁.wf = true) (h₂ : m₂.wf = true)
    (h : ∀ a, m₁.read a = m₂.read a) : m₁ = m₂ := by
  induction m₁ generalizing m₂ with
  | nil =>
    cases m₂ with
    | nil => rfl
    | cons c rest =>
      obtain ⟨b, u⟩ := c
      have hb := h b
      simp only [Memory.read, if_true] at hb
      exact absurd hb.symm (wf_cons.1 h₂).1
  | cons c rest ih =>
    obtain ⟨a, v⟩ := c
    obtain ⟨hv, ha, hr⟩ := wf_cons.1 h₁
    cases m₂ with
    | nil =>
      have hb := h a
      simp only [Memory.read, if_true] at hb
      exact absurd hb hv
    | cons d rest₂ =>
      obtain ⟨b, u⟩ := d
      obtain ⟨hu, hb, hr₂⟩ := wf_cons.1 h₂
      have hab : a = b := by
        by_contra hne
        rcases Nat.lt_or_gt_of_ne hne with hlt | hgt
        · have := h a
          simp only [Memory.read, if_true, if_neg hne] at this
          rw [read_of_all_above (all_above_mono (by omega) hb)] at this
          exact hv this
        · have := h b
          simp only [Memory.read, if_true, if_neg (Ne.symm hne)] at this
          rw [read_of_all_above (all_above_mono (by omega) ha)] at this
          exact hu this.symm
      subst hab
      have hvu : v = u := by
        have := h a
        simpa only [Memory.read, if_true] using this
      subst hvu
      have : rest = rest₂ := by
        refine ih hr hr₂ fun x => ?_
        by_cases hx : x = a
        · subst hx
          rw [read_of_all_above ha, read_of_all_above hb]
        · have := h x
          simpa only [Memory.read, if_neg hx] using this
      rw [this]

/-- A whole rewrite with the samples the space holds changes nothing. -/
theorem writeSeq_self {m : Memory} (hm : m.wf = true) {f : Nat → Sample} {n : Nat}
    (h : ∀ i, i < n → m.read i = f i) : m.writeSeq f n = m := by
  refine eq_of_read_eq (writeSeq_wf hm f n) hm fun a => ?_
  rw [read_writeSeq hm]
  split
  · exact (h a (by assumption)).symm
  · rfl

end Sys2Proof.Laws
end

