-- ==== Sys2Proof/Laws/State.lean ====
section
/-! SUPPORT. What each named update does to each field of State: one lemma per field per update, true by rfl, so
that no later proof unfolds a record update. -/

namespace Sys2Proof.Laws

open Sys2Proof.Machine

/-! `emit`: the event stream only. -/

section

variable (e : Event) (s : State)

@[simp] theorem emit_cfg : (emit e s).cfg = s.cfg := rfl
@[simp] theorem emit_knobA : (emit e s).knobA = s.knobA := rfl
@[simp] theorem emit_knobB : (emit e s).knobB = s.knobB := rfl
@[simp] theorem emit_noteState : (emit e s).noteState = s.noteState := rfl
@[simp] theorem emit_led : (emit e s).led = s.led := rfl
@[simp] theorem emit_holdIndex : (emit e s).holdIndex = s.holdIndex := rfl
@[simp] theorem emit_diagIndex : (emit e s).diagIndex = s.diagIndex := rfl
@[simp] theorem emit_diagMix : (emit e s).diagMix = s.diagMix := rfl
@[simp] theorem emit_cmdErr : (emit e s).cmdErr = s.cmdErr := rfl
@[simp] theorem emit_cfgErr : (emit e s).cfgErr = s.cfgErr := rfl
@[simp] theorem emit_live : (emit e s).live = s.live := rfl
@[simp] theorem emit_env : (emit e s).env = s.env := rfl
@[simp] theorem emit_events : (emit e s).events = s.events ++ [e] := rfl
@[simp] theorem emit_inputs : (emit e s).inputs = s.inputs := rfl
@[simp] theorem emit_freeCount : (emit e s).freeCount = s.freeCount := rfl

end

/-! `memWrite` of LIVE: LIVE only. -/

section

variable (s : State) (a : Nat) (v : Sample)

@[simp] theorem memWriteLive_cfg : (memWrite s .live a v).cfg = s.cfg := rfl
@[simp] theorem memWriteLive_knobA : (memWrite s .live a v).knobA = s.knobA := rfl
@[simp] theorem memWriteLive_knobB : (memWrite s .live a v).knobB = s.knobB := rfl
@[simp] theorem memWriteLive_noteState : (memWrite s .live a v).noteState = s.noteState := rfl
@[simp] theorem memWriteLive_led : (memWrite s .live a v).led = s.led := rfl
@[simp] theorem memWriteLive_holdIndex : (memWrite s .live a v).holdIndex = s.holdIndex := rfl
@[simp] theorem memWriteLive_diagIndex : (memWrite s .live a v).diagIndex = s.diagIndex := rfl
@[simp] theorem memWriteLive_diagMix : (memWrite s .live a v).diagMix = s.diagMix := rfl
@[simp] theorem memWriteLive_cmdErr : (memWrite s .live a v).cmdErr = s.cmdErr := rfl
@[simp] theorem memWriteLive_cfgErr : (memWrite s .live a v).cfgErr = s.cfgErr := rfl
@[simp] theorem memWriteLive_live : (memWrite s .live a v).live = s.live.write a v := rfl
@[simp] theorem memWriteLive_env : (memWrite s .live a v).env = s.env := rfl
@[simp] theorem memWriteLive_events : (memWrite s .live a v).events = s.events := rfl
@[simp] theorem memWriteLive_inputs : (memWrite s .live a v).inputs = s.inputs := rfl
@[simp] theorem memWriteLive_freeCount : (memWrite s .live a v).freeCount = s.freeCount := rfl

end

/-! `memWrite` of ENV: ENV only. -/

section

variable (s : State) (a : Nat) (v : Sample)

@[simp] theorem memWriteEnv_cfg : (memWrite s .env a v).cfg = s.cfg := rfl
@[simp] theorem memWriteEnv_knobA : (memWrite s .env a v).knobA = s.knobA := rfl
@[simp] theorem memWriteEnv_knobB : (memWrite s .env a v).knobB = s.knobB := rfl
@[simp] theorem memWriteEnv_noteState : (memWrite s .env a v).noteState = s.noteState := rfl
@[simp] theorem memWriteEnv_led : (memWrite s .env a v).led = s.led := rfl
@[simp] theorem memWriteEnv_holdIndex : (memWrite s .env a v).holdIndex = s.holdIndex := rfl
@[simp] theorem memWriteEnv_diagIndex : (memWrite s .env a v).diagIndex = s.diagIndex := rfl
@[simp] theorem memWriteEnv_diagMix : (memWrite s .env a v).diagMix = s.diagMix := rfl
@[simp] theorem memWriteEnv_cmdErr : (memWrite s .env a v).cmdErr = s.cmdErr := rfl
@[simp] theorem memWriteEnv_cfgErr : (memWrite s .env a v).cfgErr = s.cfgErr := rfl
@[simp] theorem memWriteEnv_live : (memWrite s .env a v).live = s.live := rfl
@[simp] theorem memWriteEnv_env : (memWrite s .env a v).env = s.env.write a v := rfl
@[simp] theorem memWriteEnv_events : (memWrite s .env a v).events = s.events := rfl
@[simp] theorem memWriteEnv_inputs : (memWrite s .env a v).inputs = s.inputs := rfl
@[simp] theorem memWriteEnv_freeCount : (memWrite s .env a v).freeCount = s.freeCount := rfl

end

/-! `memRewrite` of LIVE: LIVE only. -/

section

variable (s : State) (f : Nat → Sample) (n : Nat)

@[simp] theorem memRewriteLive_cfg : (memRewrite s .live f n).cfg = s.cfg := rfl
@[simp] theorem memRewriteLive_knobA : (memRewrite s .live f n).knobA = s.knobA := rfl
@[simp] theorem memRewriteLive_knobB : (memRewrite s .live f n).knobB = s.knobB := rfl
@[simp] theorem memRewriteLive_noteState : (memRewrite s .live f n).noteState = s.noteState := rfl
@[simp] theorem memRewriteLive_led : (memRewrite s .live f n).led = s.led := rfl
@[simp] theorem memRewriteLive_holdIndex : (memRewrite s .live f n).holdIndex = s.holdIndex := rfl
@[simp] theorem memRewriteLive_diagIndex : (memRewrite s .live f n).diagIndex = s.diagIndex := rfl
@[simp] theorem memRewriteLive_diagMix : (memRewrite s .live f n).diagMix = s.diagMix := rfl
@[simp] theorem memRewriteLive_cmdErr : (memRewrite s .live f n).cmdErr = s.cmdErr := rfl
@[simp] theorem memRewriteLive_cfgErr : (memRewrite s .live f n).cfgErr = s.cfgErr := rfl
@[simp] theorem memRewriteLive_live : (memRewrite s .live f n).live = s.live.writeSeq f n := rfl
@[simp] theorem memRewriteLive_env : (memRewrite s .live f n).env = s.env := rfl
@[simp] theorem memRewriteLive_events : (memRewrite s .live f n).events = s.events := rfl
@[simp] theorem memRewriteLive_inputs : (memRewrite s .live f n).inputs = s.inputs := rfl
@[simp] theorem memRewriteLive_freeCount : (memRewrite s .live f n).freeCount = s.freeCount := rfl

end

/-! `memRewrite` of ENV: ENV only. -/

section

variable (s : State) (f : Nat → Sample) (n : Nat)

@[simp] theorem memRewriteEnv_cfg : (memRewrite s .env f n).cfg = s.cfg := rfl
@[simp] theorem memRewriteEnv_knobA : (memRewrite s .env f n).knobA = s.knobA := rfl
@[simp] theorem memRewriteEnv_knobB : (memRewrite s .env f n).knobB = s.knobB := rfl
@[simp] theorem memRewriteEnv_noteState : (memRewrite s .env f n).noteState = s.noteState := rfl
@[simp] theorem memRewriteEnv_led : (memRewrite s .env f n).led = s.led := rfl
@[simp] theorem memRewriteEnv_holdIndex : (memRewrite s .env f n).holdIndex = s.holdIndex := rfl
@[simp] theorem memRewriteEnv_diagIndex : (memRewrite s .env f n).diagIndex = s.diagIndex := rfl
@[simp] theorem memRewriteEnv_diagMix : (memRewrite s .env f n).diagMix = s.diagMix := rfl
@[simp] theorem memRewriteEnv_cmdErr : (memRewrite s .env f n).cmdErr = s.cmdErr := rfl
@[simp] theorem memRewriteEnv_cfgErr : (memRewrite s .env f n).cfgErr = s.cfgErr := rfl
@[simp] theorem memRewriteEnv_live : (memRewrite s .env f n).live = s.live := rfl
@[simp] theorem memRewriteEnv_env : (memRewrite s .env f n).env = s.env.writeSeq f n := rfl
@[simp] theorem memRewriteEnv_events : (memRewrite s .env f n).events = s.events := rfl
@[simp] theorem memRewriteEnv_inputs : (memRewrite s .env f n).inputs = s.inputs := rfl
@[simp] theorem memRewriteEnv_freeCount : (memRewrite s .env f n).freeCount = s.freeCount := rfl

end

/-! `envgen`: ENV only (R135). -/

section

variable (v : Nat) (s : State)

@[simp] theorem envgen_cfg : (envgen v s).cfg = s.cfg := rfl
@[simp] theorem envgen_knobA : (envgen v s).knobA = s.knobA := rfl
@[simp] theorem envgen_knobB : (envgen v s).knobB = s.knobB := rfl
@[simp] theorem envgen_noteState : (envgen v s).noteState = s.noteState := rfl
@[simp] theorem envgen_led : (envgen v s).led = s.led := rfl
@[simp] theorem envgen_holdIndex : (envgen v s).holdIndex = s.holdIndex := rfl
@[simp] theorem envgen_diagIndex : (envgen v s).diagIndex = s.diagIndex := rfl
@[simp] theorem envgen_diagMix : (envgen v s).diagMix = s.diagMix := rfl
@[simp] theorem envgen_cmdErr : (envgen v s).cmdErr = s.cmdErr := rfl
@[simp] theorem envgen_cfgErr : (envgen v s).cfgErr = s.cfgErr := rfl
@[simp] theorem envgen_live : (envgen v s).live = s.live := rfl
@[simp] theorem envgen_env : (envgen v s).env = s.env.writeSeq (envSample s.cfg v) s.cfg.envLen := rfl
@[simp] theorem envgen_events : (envgen v s).events = s.events := rfl
@[simp] theorem envgen_inputs : (envgen v s).inputs = s.inputs := rfl
@[simp] theorem envgen_freeCount : (envgen v s).freeCount = s.freeCount := rfl

end

/-! `writeDiag`: the diagnostic registers only (R117). -/

section

variable (index m : Int) (s : State)

@[simp] theorem writeDiag_cfg : (writeDiag index m s).cfg = s.cfg := rfl
@[simp] theorem writeDiag_knobA : (writeDiag index m s).knobA = s.knobA := rfl
@[simp] theorem writeDiag_knobB : (writeDiag index m s).knobB = s.knobB := rfl
@[simp] theorem writeDiag_noteState : (writeDiag index m s).noteState = s.noteState := rfl
@[simp] theorem writeDiag_led : (writeDiag index m s).led = s.led := rfl
@[simp] theorem writeDiag_holdIndex : (writeDiag index m s).holdIndex = s.holdIndex := rfl
@[simp] theorem writeDiag_diagIndex : (writeDiag index m s).diagIndex = narrow16 index := rfl
@[simp] theorem writeDiag_diagMix : (writeDiag index m s).diagMix = narrow16 m := rfl
@[simp] theorem writeDiag_cmdErr : (writeDiag index m s).cmdErr = s.cmdErr := rfl
@[simp] theorem writeDiag_cfgErr : (writeDiag index m s).cfgErr = s.cfgErr := rfl
@[simp] theorem writeDiag_live : (writeDiag index m s).live = s.live := rfl
@[simp] theorem writeDiag_env : (writeDiag index m s).env = s.env := rfl
@[simp] theorem writeDiag_events : (writeDiag index m s).events = s.events := rfl
@[simp] theorem writeDiag_inputs : (writeDiag index m s).inputs = s.inputs := rfl
@[simp] theorem writeDiag_freeCount : (writeDiag index m s).freeCount = s.freeCount := rfl

end

/-! `raiseIllegalCommand`: CMD_ERR only (R182). -/

section

variable (s : State)

@[simp] theorem raiseIllegalCommand_cfg : (raiseIllegalCommand s).cfg = s.cfg := rfl
@[simp] theorem raiseIllegalCommand_knobA : (raiseIllegalCommand s).knobA = s.knobA := rfl
@[simp] theorem raiseIllegalCommand_knobB : (raiseIllegalCommand s).knobB = s.knobB := rfl
@[simp] theorem raiseIllegalCommand_noteState : (raiseIllegalCommand s).noteState = s.noteState := rfl
@[simp] theorem raiseIllegalCommand_led : (raiseIllegalCommand s).led = s.led := rfl
@[simp] theorem raiseIllegalCommand_holdIndex : (raiseIllegalCommand s).holdIndex = s.holdIndex := rfl
@[simp] theorem raiseIllegalCommand_diagIndex : (raiseIllegalCommand s).diagIndex = s.diagIndex := rfl
@[simp] theorem raiseIllegalCommand_diagMix : (raiseIllegalCommand s).diagMix = s.diagMix := rfl
@[simp] theorem raiseIllegalCommand_cmdErr : (raiseIllegalCommand s).cmdErr = true := rfl
@[simp] theorem raiseIllegalCommand_cfgErr : (raiseIllegalCommand s).cfgErr = s.cfgErr := rfl
@[simp] theorem raiseIllegalCommand_live : (raiseIllegalCommand s).live = s.live := rfl
@[simp] theorem raiseIllegalCommand_env : (raiseIllegalCommand s).env = s.env := rfl
@[simp] theorem raiseIllegalCommand_events : (raiseIllegalCommand s).events = s.events := rfl
@[simp] theorem raiseIllegalCommand_inputs : (raiseIllegalCommand s).inputs = s.inputs := rfl
@[simp] theorem raiseIllegalCommand_freeCount : (raiseIllegalCommand s).freeCount = s.freeCount := rfl

end

/-! `takeInput`: the host's queue only. -/

section

variable (s : State)

@[simp] theorem takeInput_cfg : (takeInput s).cfg = s.cfg := rfl
@[simp] theorem takeInput_knobA : (takeInput s).knobA = s.knobA := rfl
@[simp] theorem takeInput_knobB : (takeInput s).knobB = s.knobB := rfl
@[simp] theorem takeInput_noteState : (takeInput s).noteState = s.noteState := rfl
@[simp] theorem takeInput_led : (takeInput s).led = s.led := rfl
@[simp] theorem takeInput_holdIndex : (takeInput s).holdIndex = s.holdIndex := rfl
@[simp] theorem takeInput_diagIndex : (takeInput s).diagIndex = s.diagIndex := rfl
@[simp] theorem takeInput_diagMix : (takeInput s).diagMix = s.diagMix := rfl
@[simp] theorem takeInput_cmdErr : (takeInput s).cmdErr = s.cmdErr := rfl
@[simp] theorem takeInput_cfgErr : (takeInput s).cfgErr = s.cfgErr := rfl
@[simp] theorem takeInput_live : (takeInput s).live = s.live := rfl
@[simp] theorem takeInput_env : (takeInput s).env = s.env := rfl
@[simp] theorem takeInput_events : (takeInput s).events = s.events := rfl
@[simp] theorem takeInput_inputs : (takeInput s).inputs = s.inputs.tail := rfl
@[simp] theorem takeInput_freeCount : (takeInput s).freeCount = s.freeCount := rfl

end

/-! `offerWord`: the host's queue only. -/

section

variable (s : State) (w : Word)

@[simp] theorem offerWord_cfg : (offerWord s w).cfg = s.cfg := rfl
@[simp] theorem offerWord_knobA : (offerWord s w).knobA = s.knobA := rfl
@[simp] theorem offerWord_knobB : (offerWord s w).knobB = s.knobB := rfl
@[simp] theorem offerWord_noteState : (offerWord s w).noteState = s.noteState := rfl
@[simp] theorem offerWord_led : (offerWord s w).led = s.led := rfl
@[simp] theorem offerWord_holdIndex : (offerWord s w).holdIndex = s.holdIndex := rfl
@[simp] theorem offerWord_diagIndex : (offerWord s w).diagIndex = s.diagIndex := rfl
@[simp] theorem offerWord_diagMix : (offerWord s w).diagMix = s.diagMix := rfl
@[simp] theorem offerWord_cmdErr : (offerWord s w).cmdErr = s.cmdErr := rfl
@[simp] theorem offerWord_cfgErr : (offerWord s w).cfgErr = s.cfgErr := rfl
@[simp] theorem offerWord_live : (offerWord s w).live = s.live := rfl
@[simp] theorem offerWord_env : (offerWord s w).env = s.env := rfl
@[simp] theorem offerWord_events : (offerWord s w).events = s.events := rfl
@[simp] theorem offerWord_inputs : (offerWord s w).inputs = .command w :: s.inputs := rfl
@[simp] theorem offerWord_freeCount : (offerWord s w).freeCount = s.freeCount := rfl

end

/-! `pressSequence`: ENV, the event stream, LED and NOTE_STATE (R152). -/

section

variable (note vel : Nat) (s : State)

@[simp] theorem pressSequence_cfg : (pressSequence note vel s).cfg = s.cfg := rfl
@[simp] theorem pressSequence_knobA : (pressSequence note vel s).knobA = s.knobA := rfl
@[simp] theorem pressSequence_knobB : (pressSequence note vel s).knobB = s.knobB := rfl
@[simp] theorem pressSequence_noteState : (pressSequence note vel s).noteState = .sounding (noteOperand note) := rfl
@[simp] theorem pressSequence_led : (pressSequence note vel s).led = true := rfl
@[simp] theorem pressSequence_holdIndex : (pressSequence note vel s).holdIndex = s.holdIndex := rfl
@[simp] theorem pressSequence_diagIndex : (pressSequence note vel s).diagIndex = s.diagIndex := rfl
@[simp] theorem pressSequence_diagMix : (pressSequence note vel s).diagMix = s.diagMix := rfl
@[simp] theorem pressSequence_cmdErr : (pressSequence note vel s).cmdErr = s.cmdErr := rfl
@[simp] theorem pressSequence_cfgErr : (pressSequence note vel s).cfgErr = s.cfgErr := rfl
@[simp] theorem pressSequence_live : (pressSequence note vel s).live = s.live := rfl
@[simp] theorem pressSequence_env : (pressSequence note vel s).env = s.env.writeSeq (envSample s.cfg vel) s.cfg.envLen := rfl
@[simp] theorem pressSequence_events : (pressSequence note vel s).events = s.events ++ [.envInstall s.holdIndex] ++ [.press (noteOperand note)] := rfl
@[simp] theorem pressSequence_inputs : (pressSequence note vel s).inputs = s.inputs := rfl
@[simp] theorem pressSequence_freeCount : (pressSequence note vel s).freeCount = s.freeCount := rfl

end

/-! `releaseSequence`: the event stream, LED and NOTE_STATE (R155). -/

section

variable (note : Nat) (s : State)

@[simp] theorem releaseSequence_cfg : (releaseSequence note s).cfg = s.cfg := rfl
@[simp] theorem releaseSequence_knobA : (releaseSequence note s).knobA = s.knobA := rfl
@[simp] theorem releaseSequence_knobB : (releaseSequence note s).knobB = s.knobB := rfl
@[simp] theorem releaseSequence_noteState : (releaseSequence note s).noteState = releasedNoteState (noteOperand note) s.noteState := rfl
@[simp] theorem releaseSequence_led : (releaseSequence note s).led = false := rfl
@[simp] theorem releaseSequence_holdIndex : (releaseSequence note s).holdIndex = s.holdIndex := rfl
@[simp] theorem releaseSequence_diagIndex : (releaseSequence note s).diagIndex = s.diagIndex := rfl
@[simp] theorem releaseSequence_diagMix : (releaseSequence note s).diagMix = s.diagMix := rfl
@[simp] theorem releaseSequence_cmdErr : (releaseSequence note s).cmdErr = s.cmdErr := rfl
@[simp] theorem releaseSequence_cfgErr : (releaseSequence note s).cfgErr = s.cfgErr := rfl
@[simp] theorem releaseSequence_live : (releaseSequence note s).live = s.live := rfl
@[simp] theorem releaseSequence_env : (releaseSequence note s).env = s.env := rfl
@[simp] theorem releaseSequence_events : (releaseSequence note s).events = s.events ++ [.releaseThenPress (noteOperand note)] := rfl
@[simp] theorem releaseSequence_inputs : (releaseSequence note s).inputs = s.inputs := rfl
@[simp] theorem releaseSequence_freeCount : (releaseSequence note s).freeCount = s.freeCount := rfl

end

/-! `State.afterReset`: every field (R201 to R204). -/

section

variable (cfg : Config) (inputs : List HostInput) (k : Nat)

@[simp] theorem afterReset_cfg : (State.afterReset cfg inputs k).cfg = cfg := rfl
@[simp] theorem afterReset_knobA : (State.afterReset cfg inputs k).knobA = 0#16 := rfl
@[simp] theorem afterReset_knobB : (State.afterReset cfg inputs k).knobB = 0#16 := rfl
@[simp] theorem afterReset_noteState : (State.afterReset cfg inputs k).noteState = .idle := rfl
@[simp] theorem afterReset_led : (State.afterReset cfg inputs k).led = false := rfl
@[simp] theorem afterReset_holdIndex : (State.afterReset cfg inputs k).holdIndex = resetHoldIndex cfg := rfl
@[simp] theorem afterReset_diagIndex : (State.afterReset cfg inputs k).diagIndex = 0#16 := rfl
@[simp] theorem afterReset_diagMix : (State.afterReset cfg inputs k).diagMix = 0#16 := rfl
@[simp] theorem afterReset_cmdErr : (State.afterReset cfg inputs k).cmdErr = false := rfl
@[simp] theorem afterReset_cfgErr : (State.afterReset cfg inputs k).cfgErr = false := rfl
@[simp] theorem afterReset_live : (State.afterReset cfg inputs k).live = resetLive cfg := rfl
@[simp] theorem afterReset_env : (State.afterReset cfg inputs k).env = resetEnv cfg := rfl
@[simp] theorem afterReset_events : (State.afterReset cfg inputs k).events = [] := rfl
@[simp] theorem afterReset_inputs : (State.afterReset cfg inputs k).inputs = inputs := rfl
@[simp] theorem afterReset_freeCount : (State.afterReset cfg inputs k).freeCount = k := rfl

end

/-! `State.afterHalt`: every field (R181). -/

section

variable (cfg : Config) (events : List Event) (inputs : List HostInput) (k : Nat)

@[simp] theorem afterHalt_cfg : (State.afterHalt cfg events inputs k).cfg = cfg := rfl
@[simp] theorem afterHalt_knobA : (State.afterHalt cfg events inputs k).knobA = (Config.freeHaltedRegisters k).knobA := rfl
@[simp] theorem afterHalt_knobB : (State.afterHalt cfg events inputs k).knobB = (Config.freeHaltedRegisters k).knobB := rfl
@[simp] theorem afterHalt_noteState : (State.afterHalt cfg events inputs k).noteState = (Config.freeHaltedRegisters k).noteState := rfl
@[simp] theorem afterHalt_led : (State.afterHalt cfg events inputs k).led = false := rfl
@[simp] theorem afterHalt_holdIndex : (State.afterHalt cfg events inputs k).holdIndex = (Config.freeHaltedRegisters k).holdIndex := rfl
@[simp] theorem afterHalt_diagIndex : (State.afterHalt cfg events inputs k).diagIndex = (Config.freeHaltedRegisters k).diagIndex := rfl
@[simp] theorem afterHalt_diagMix : (State.afterHalt cfg events inputs k).diagMix = (Config.freeHaltedRegisters k).diagMix := rfl
@[simp] theorem afterHalt_cmdErr : (State.afterHalt cfg events inputs k).cmdErr = (Config.freeHaltedRegisters k).cmdErr := rfl
@[simp] theorem afterHalt_cfgErr : (State.afterHalt cfg events inputs k).cfgErr = true := rfl
@[simp] theorem afterHalt_live : (State.afterHalt cfg events inputs k).live = haltedLive cfg k := rfl
@[simp] theorem afterHalt_env : (State.afterHalt cfg events inputs k).env = haltedEnv cfg k := rfl
@[simp] theorem afterHalt_events : (State.afterHalt cfg events inputs k).events = events := rfl
@[simp] theorem afterHalt_inputs : (State.afterHalt cfg events inputs k).inputs = inputs := rfl
@[simp] theorem afterHalt_freeCount : (State.afterHalt cfg events inputs k).freeCount = k + 1 := rfl

end

end Sys2Proof.Laws
end

