-- ==== Sys2Proof/Laws/Ops.lean ====
section
/-! SUPPORT. What each shared operation does, said once: reads after writes, the command sequences as record
updates, the reset procedure by cases, and everything one step can do. -/

namespace Sys2Proof.Laws

open Sys2Proof.Machine

/-- A read after a whole rewrite of LIVE: LIVE[i] below n reads as f i, every other sample of every space as before. -/
theorem memRead_memRewriteLive {s : State} (h : s.live.wf = true) (f : Nat → Sample) (n : Nat) (sp : Space)
    (a : Nat) : memRead (memRewrite s .live f n) sp a =
      if sp = .live ∧ a < n then f a else memRead s sp a := by
  cases sp <;> simp [memRead, read_writeSeq h]

/-- A read after a whole rewrite of ENV: ENV[i] below n reads as f i, every other sample of every space as before. -/
theorem memRead_memRewriteEnv {s : State} (h : s.env.wf = true) (f : Nat → Sample) (n : Nat) (sp : Space)
    (a : Nat) : memRead (memRewrite s .env f n) sp a =
      if sp = .env ∧ a < n then f a else memRead s sp a := by
  cases sp <;> simp [memRead, read_writeSeq h]

/-- A read after a store to one sample of a buffer, both buffers in canonical form. -/
theorem memRead_memWrite {s : State} (hl : s.live.wf = true) (he : s.env.wf = true) (b : Buffer) (a : Nat)
    (v : Sample) (sp : Space) (x : Nat) : memRead (memWrite s b a v) sp x =
      if sp = b.space ∧ x = a then v else memRead s sp x := by
  cases b <;> cases sp <;> simp [memRead, Buffer.space, read_write hl, read_write he]

/-- Everything ENVGEN does (R135). -/
theorem envgen_eq (v : Nat) (s : State) :
    envgen v s = { s with env := s.env.writeSeq (envSample s.cfg v) s.cfg.envLen } := rfl

/-- Everything the press sequence does (R152). -/
theorem pressSequence_eq (note vel : Nat) (s : State) :
    pressSequence note vel s =
      { s with
        env := s.env.writeSeq (envSample s.cfg vel) s.cfg.envLen,
        events := s.events ++ [.envInstall s.holdIndex, .press (noteOperand note)],
        led := true, noteState := .sounding (noteOperand note) } := by
  simp [pressSequence, emit, envgen_eq]

/-- Everything the release sequence does (R155). -/
theorem releaseSequence_eq (note : Nat) (s : State) :
    releaseSequence note s =
      { s with
        events := s.events ++ [.releaseThenPress (noteOperand note)],
        led := false, noteState := releasedNoteState (noteOperand note) s.noteState } := rfl

/-- The reset procedure with a legal configuration (R200). -/
theorem resetBlock_legal {cfg : Config} (h : configLegal cfg = true) (s : State) :
    resetBlock cfg s = State.afterReset cfg s.inputs s.freeCount := if_pos h

/-- The reset procedure with an illegal configuration (R181). -/
theorem resetBlock_illegal {cfg : Config} (h : configLegal cfg = false) (s : State) :
    resetBlock cfg s = State.afterHalt cfg s.events s.inputs s.freeCount :=
  if_neg (by simp [h])

/-- Reset during a command of a running block abandons the command first (R206). -/
theorem resetDuringWord_running {s : State} (h : s.cfgErr = false) (w : Word) (cfg : Config) :
    resetDuringWord w cfg s = resetBlock cfg (abandonWord w s) := by simp [resetDuringWord, h]

/-- A halted block has no command to abandon (R181). -/
theorem resetDuringWord_halted {s : State} (h : s.cfgErr = true) (w : Word) (cfg : Config) :
    resetDuringWord w cfg s = resetBlock cfg s := by simp [resetDuringWord, h]

/-- The host's oldest input resets the block with cfg exactly when it is one of the two resets with cfg. -/
theorem nextReset_eq_some {s : State} {cfg : Config} : nextReset s = some cfg ↔
    ∃ rest, s.inputs = .reset cfg :: rest ∨ ∃ w, s.inputs = .resetDuring w cfg :: rest := by
  unfold nextReset
  rcases s.inputs with _ | ⟨⟨⟩ | ⟨⟩ | ⟨⟩, rest⟩ <;> simp [HostInput.resetConfig]

/-- Everything a step that answers a next state can have done: served a reset, served a reset that cut a command
short, run a command, discarded an illegal word, or held its state with nothing queued. -/
theorem step_cases {s t : State} (h : step s = .next t) :
    (∃ cfg rest, s.inputs = .reset cfg :: rest ∧ t = resetBlock cfg (takeInput s)) ∨
    (∃ w cfg rest, s.inputs = .resetDuring w cfg :: rest ∧ t = resetDuringWord w cfg (takeInput s)) ∨
    (∃ w rest i, s.inputs = .command w :: rest ∧ s.cfgErr = false ∧ decode w = .ok i ∧
      exec i (takeInput s) = .next t) ∨
    (∃ w rest e, s.inputs = .command w :: rest ∧ s.cfgErr = false ∧ decode w = .error e ∧
      t = raiseIllegalCommand (takeInput s)) ∨
    (s.inputs = [] ∧ s.cfgErr = false ∧ t = s) := by
  unfold step serveInput at h
  split at h
  · rename_i cfg rest hin
    cases h
    exact .inl ⟨cfg, rest, hin, rfl⟩
  · rename_i w cfg rest hin
    cases h
    exact .inr (.inl ⟨w, cfg, rest, hin, rfl⟩)
  · rename_i w rest hin
    split at h
    · cases h
    · rename_i hc
      have hc : s.cfgErr = false := by simpa using hc
      unfold runWord at h
      split at h
      · rename_i i hd
        exact .inr (.inr (.inl ⟨w, rest, i, hin, hc, hd, h⟩))
      · rename_i e hd
        cases h
        exact .inr (.inr (.inr (.inl ⟨w, rest, e, hin, hc, hd, rfl⟩)))
  · rename_i hin
    split at h
    · cases h
    · rename_i hc
      cases h
      exact .inr (.inr (.inr (.inr ⟨hin, by simpa using hc, rfl⟩)))

/-- Everything a command that answers a next state can have done, command by command. -/
theorem exec_cases {i : Instr} {s t : State} (h : exec i s = .next t) :
    (∃ note vel, i = .noteon note vel ∧ 0 < vel ∧ t = pressSequence note vel s) ∨
    (∃ note, i = .noteon note 0 ∧ t = releaseSequence note s) ∨
    (∃ note, i = .noteoff note ∧ t = releaseSequence note s) ∨
    (∃ raw, i = .knoba raw ∧ t = { s with knobA := smoothedKnob s.cfg s.knobA raw }) ∨
    (∃ raw, i = .knobb raw ∧ t = { s with knobB := smoothedKnob s.cfg s.knobB raw }) ∨
    (i = .mix ∧ t = writeDiag (currentIndex s) (currentMix s)
      (memRewrite s .live (mixSample s.cfg (currentIndex s) (currentMix s)) s.cfg.sampleSize)) := by
  cases i with
  | noteon note vel =>
    simp only [exec, execNoteon] at h
    split at h
    · cases h
      exact .inl ⟨note, vel, rfl, by assumption, rfl⟩
    · cases h
      obtain rfl : vel = 0 := by omega
      exact .inr (.inl ⟨note, rfl, rfl⟩)
  | noteoff note =>
    cases h
    exact .inr (.inr (.inl ⟨note, rfl, rfl⟩))
  | knoba raw =>
    cases h
    exact .inr (.inr (.inr (.inl ⟨raw, rfl, rfl⟩)))
  | knobb raw =>
    cases h
    exact .inr (.inr (.inr (.inr (.inl ⟨raw, rfl, rfl⟩))))
  | mix =>
    cases h
    exact .inr (.inr (.inr (.inr (.inr ⟨rfl, rfl⟩))))

/-- No command reads or writes the host's queue. -/
theorem exec_withInputs (i : Instr) {s t : State} (h : exec i s = .next t) (x : List HostInput) :
    exec i { s with inputs := x } = .next { t with inputs := x } := by
  rcases exec_cases h with ⟨k, v, rfl, hv, rfl⟩ | ⟨k, rfl, rfl⟩ | ⟨k, rfl, rfl⟩ | ⟨k, rfl, rfl⟩ |
    ⟨k, rfl, rfl⟩ | ⟨rfl, rfl⟩
  · simp only [exec, execNoteon, if_pos hv]
    rfl
  all_goals rfl

end Sys2Proof.Laws
end

