-- ==== Sys2Proof/Laws/Actions.lean ====
section
/-! SUPPORT. What lists of actions do: applied one after another, the actions of a command, and what an abandoned
command leaves. -/

namespace Sys2Proof.Laws

open Sys2Proof.Machine

theorem applyActions_append (a b : List Action) (s : State) :
    applyActions (a ++ b) s = applyActions b (applyActions a s) := by
  simp [applyActions, List.foldl_append]

theorem rewriteActions_succ (b : Buffer) (f : Nat → Sample) (n : Nat) :
    rewriteActions b f (n + 1) = rewriteActions b f n ++ [.store b n (f n)] := by
  simp [rewriteActions, List.range_succ]

/-- The stores of a rewrite, applied in order, are the rewrite. -/
theorem applyActions_rewrite (b : Buffer) (f : Nat → Sample) (n : Nat) (s : State) :
    applyActions (rewriteActions b f n) s = memRewrite s b f n := by
  induction n with
  | zero => cases b <;> rfl
  | succ n ih =>
    rw [rewriteActions_succ, applyActions_append, ih]
    cases b <;> rfl

theorem applyActions_cons (a : Action) (acts : List Action) (s : State) :
    applyActions (a :: acts) s = applyActions acts (applyAction s a) := rfl

/-- The events a list of actions emits. -/
def emitted (acts : List Action) : List Event :=
  acts.filterMap fun a => match a with | .emit e => some e | _ => none

/-- No action is about the configuration, the flag CFG_ERR, the queue or the counter. -/
theorem applyActions_frame (acts : List Action) (s : State) :
    (applyActions acts s).cfg = s.cfg ∧ (applyActions acts s).cfgErr = s.cfgErr ∧
      (applyActions acts s).holdIndex = s.holdIndex ∧ (applyActions acts s).inputs = s.inputs ∧
      (applyActions acts s).freeCount = s.freeCount := by
  induction acts generalizing s with
  | nil => exact ⟨rfl, rfl, rfl, rfl, rfl⟩
  | cons a acts ih =>
    obtain ⟨h1, h2, h3, h4, h5⟩ := ih (applyAction s a)
    rw [applyActions_cons, h1, h2, h3, h4, h5]
    rcases a with ⟨⟨⟩ | ⟨⟩, i, v⟩ | _ | _ | _ | _ | _ | _ | _ | _ <;> exact ⟨rfl, rfl, rfl, rfl, rfl⟩

/-- The stream grows by the events a list of actions emits. -/
theorem applyActions_events (acts : List Action) (s : State) :
    (applyActions acts s).events = s.events ++ emitted acts := by
  induction acts generalizing s with
  | nil => simp [applyActions, emitted]
  | cons a acts ih =>
    rw [applyActions_cons, ih]
    rcases a with ⟨⟨⟩ | ⟨⟩, i, v⟩ | _ | _ | _ | _ | _ | _ | _ | _ <;> simp [applyAction, emitted, setCmdErr]

/-- Of an abandoned command's events the first ones are emitted, each whole (R206). -/
theorem emitted_survivingActions (wrote : Nat → Bool) (pos n : Nat) (acts : List Action) :
    emitted (survivingActions wrote pos n acts) = (emitted acts).take n := by
  induction acts generalizing pos n with
  | nil => simp [survivingActions, emitted]
  | cons a acts ih =>
    cases a with
    | emit e =>
      cases n with
      | zero => simpa [survivingActions, emitted] using ih (pos + 1) 0
      | succ n => simpa [survivingActions, emitted] using ih (pos + 1) n
    | _ =>
      rw [survivingActions]
      · split <;> simpa [emitted] using ih (pos + 1) n
      all_goals simp

/-- What an abandoned command leaves unchanged: all but its writes, the stream and the counter. -/
theorem abandonWord_frame (w : Word) (s : State) :
    (abandonWord w s).cfg = s.cfg ∧ (abandonWord w s).cfgErr = s.cfgErr ∧
      (abandonWord w s).holdIndex = s.holdIndex ∧ (abandonWord w s).inputs = s.inputs ∧
      (abandonWord w s).freeCount = s.freeCount + 1 := by
  obtain ⟨h1, h2, h3, h4, -⟩ := applyActions_frame
    (survivingActions (Config.freeAbandonedWrite s.freeCount) 0 (Config.freeAbandonedEvents s.freeCount)
      (wordActions s w)) s
  exact ⟨h1, h2, h3, h4, rfl⟩

/-- The stream after an abandoned command: the first of its events, each whole, are appended (R206). -/
theorem abandonWord_events (w : Word) (s : State) :
    (abandonWord w s).events =
      s.events ++ (emitted (wordActions s w)).take (Config.freeAbandonedEvents s.freeCount) := by
  show (applyActions _ s).events = _
  rw [applyActions_events, emitted_survivingActions]

end Sys2Proof.Laws
end

