-- ==== Sys2Proof/Laws/Arith.lean ====
section
/-! SUPPORT. The laws of the arithmetic primitives: quotients stay between bounds, rounding is monotone, and a
value in range survives narrowing. -/

namespace Sys2Proof.Laws

open Sys2Proof.Machine

theorem floorDiv_eq_ediv {b : Int} (hb : 0 < b) (a : Int) : floorDiv a b = a / b :=
  Int.fdiv_eq_ediv_of_nonneg a (by omega)

/-- A truncated quotient stays between two integers that bound the exact quotient. -/
theorem truncDiv_between {a b lo hi : Int} (hb : 0 < b) (hlo : lo * b ≤ a) (hhi : a ≤ hi * b) :
    lo ≤ truncDiv a b ∧ truncDiv a b ≤ hi := by
  unfold truncDiv
  rcases Int.le_total 0 a with ha | ha
  · rw [Int.tdiv_eq_ediv_of_nonneg ha]
    refine ⟨(Int.le_ediv_iff_mul_le hb).2 hlo, ?_⟩
    have : a / b < hi + 1 := (Int.ediv_lt_iff_lt_mul hb).2 (by nlinarith)
    omega
  · obtain ⟨c, rfl⟩ : ∃ c, a = -c := ⟨-a, by omega⟩
    rw [Int.neg_tdiv, Int.tdiv_eq_ediv_of_nonneg (by omega)]
    have h1 : -hi ≤ c / b := (Int.le_ediv_iff_mul_le hb).2 (by nlinarith)
    have h2 : c / b < -lo + 1 := (Int.ediv_lt_iff_lt_mul hb).2 (by nlinarith)
    omega

/-- A floored quotient stays between two integers that bound the exact quotient. -/
theorem floorDiv_between {a b lo hi : Int} (hb : 0 < b) (hlo : lo * b ≤ a) (hhi : a ≤ hi * b) :
    lo ≤ floorDiv a b ∧ floorDiv a b ≤ hi := by
  rw [floorDiv_eq_ediv hb]
  refine ⟨(Int.le_ediv_iff_mul_le hb).2 hlo, ?_⟩
  have : a / b < hi + 1 := (Int.ediv_lt_iff_lt_mul hb).2 (by nlinarith)
  omega

/-- The rounded quotient is within one half of the exact one, and even when it is exactly one half away. -/
theorem roundHalfEven_spec {a b : Int} (hb : 0 < b) :
    2 * a ≤ 2 * (roundHalfEven a b * b) + b ∧ 2 * (roundHalfEven a b * b) ≤ 2 * a + b ∧
      (2 * a = 2 * (roundHalfEven a b * b) + b ∨ 2 * (roundHalfEven a b * b) = 2 * a + b →
        roundHalfEven a b % 2 = 0) := by
  have hr0 : 0 ≤ a - a / b * b := by have := Int.ediv_mul_le a (by omega : b ≠ 0); omega
  have hr1 : a - a / b * b < b := by
    have := Int.lt_ediv_add_one_mul_self a hb
    nlinarith
  unfold roundHalfEven
  simp only [floorDiv_eq_ediv hb]
  generalize a / b = q at *
  have hexp : (q + 1) * b = q * b + b := by ring
  split
  · refine ⟨by omega, by omega, by omega⟩
  · split
    · rw [hexp]
      refine ⟨by omega, by omega, by omega⟩
    · split
      · refine ⟨by omega, by omega, fun _ => by assumption⟩
      · rw [hexp]
        refine ⟨by omega, by omega, fun _ => by omega⟩

/-- A rounded quotient stays between two integers that bound the exact quotient. -/
theorem roundHalfEven_between {a b lo hi : Int} (hb : 0 < b) (hlo : lo * b ≤ a) (hhi : a ≤ hi * b) :
    lo ≤ roundHalfEven a b ∧ roundHalfEven a b ≤ hi := by
  obtain ⟨h1, h2, -⟩ := roundHalfEven_spec (a := a) hb
  constructor
  · by_contra hlt
    have : roundHalfEven a b + 1 ≤ lo := by omega
    nlinarith
  · by_contra hgt
    have : hi + 1 ≤ roundHalfEven a b := by omega
    nlinarith

/-- Rounding is monotone in the dividend. -/
theorem roundHalfEven_mono {a a' b : Int} (hb : 0 < b) (h : a ≤ a') :
    roundHalfEven a b ≤ roundHalfEven a' b := by
  obtain ⟨-, h2, h3⟩ := roundHalfEven_spec (a := a) hb
  obtain ⟨k1, -, k3⟩ := roundHalfEven_spec (a := a') hb
  by_contra hlt
  have hstep : roundHalfEven a' b + 1 ≤ roundHalfEven a b := by omega
  have hmul : (roundHalfEven a' b + 1) * b ≤ roundHalfEven a b * b := by nlinarith
  have e1 : (roundHalfEven a' b + 1) * b = roundHalfEven a' b * b + b := by ring
  have t1 : 2 * (roundHalfEven a b * b) = 2 * a + b := by omega
  have t2 : 2 * a' = 2 * (roundHalfEven a' b * b) + b := by omega
  have ev1 := h3 (Or.inr t1)
  have ev2 := k3 (Or.inl t2)
  have heq : roundHalfEven a b * b = (roundHalfEven a' b + 1) * b := by omega
  have : roundHalfEven a b = roundHalfEven a' b + 1 := Int.eq_of_mul_eq_mul_right (by omega) heq
  omega

theorem clamp_of_mem {x lo hi : Int} (h1 : lo ≤ x) (h2 : x ≤ hi) : clamp x lo hi = x := by
  unfold clamp
  rw [if_neg (by omega), if_neg (by omega)]

theorem regValue_nonneg (r : Reg16) : 0 ≤ regValue r := by unfold regValue; omega

theorem regValue_lt (r : Reg16) : regValue r < 65536 := by
  have := r.isLt
  unfold regValue
  omega

/-- A value in [0, 65535] survives the narrowing of a register write. -/
theorem regValue_narrow16 {z : Int} (h0 : 0 ≤ z) (h1 : z < 65536) : regValue (narrow16 z) = z := by
  obtain ⟨n, rfl⟩ := Int.eq_ofNat_of_zero_le h0
  have hn : n < 65536 := by omega
  simp only [regValue, narrow16, Int.natCast_inj, BitVec.ofInt_natCast, BitVec.toNat_ofNat]
  exact Nat.mod_eq_of_lt (by omega)

/-- A register's own value survives the narrowing of a register write. -/
theorem narrow16_regValue (r : Reg16) : narrow16 (regValue r) = r := by
  simp [narrow16, regValue]

/-- A value in the signed 16-bit range survives the narrowing of a sample write (R61). -/
theorem toInt_narrow16 {z : Int} (h0 : -32768 ≤ z) (h1 : z ≤ 32767) : (narrow16 z).toInt = z := by
  unfold narrow16
  rw [BitVec.toInt_ofInt]
  exact Int.bmod_eq_of_le (by omega) (by omega)

/-- A sample's own value survives the narrowing of a sample write. -/
theorem narrow16_toInt (v : Sample) : narrow16 v.toInt = v := by
  simp [narrow16]

theorem sample_range (v : Sample) : -32768 ≤ v.toInt ∧ v.toInt ≤ 32767 := by
  have h1 := v.le_toInt
  have h2 := v.toInt_lt
  constructor <;> omega

end Sys2Proof.Laws
end

