-- ==== Sys2Proof/Laws/Assembler.lean ====
section
/-! SUPPORT. What the assembler's readers do with text: comments and case, white space at the ends, commas, and the
written operands. -/

namespace Sys2Proof.Laws

open Sys2Proof.Machine

/-- A comment behind a line is not part of it (R92). -/
theorem cleanLine_comment (l comment : List Char) : cleanLine (l ++ ';' :: comment) = cleanLine l := by
  unfold cleanLine
  induction l with
  | nil => rfl
  | cons x l ih =>
    simp only [List.cons_append, List.takeWhile_cons]
    split
    · simpa using ih
    · rfl

/-- A line in lower case without a comment is its own clean line. -/
theorem cleanLine_id {l : List Char} (h : ∀ c ∈ l, c ≠ ';' ∧ c.toLower = c) : cleanLine l = l := by
  unfold cleanLine
  induction l with
  | nil => rfl
  | cons x l ih =>
    have hx := h x (by simp)
    simp only [List.takeWhile_cons]
    rw [if_pos (by simpa using hx.1), List.map_cons, ih (fun c hc => h c (by simp [hc])), hx.2]

theorem dropBlanks_id {l : List Char} (h : ∀ c ∈ l.head?, isBlankChar c = false) : dropBlanks l = l := by
  cases l with
  | nil => rfl
  | cons x l => simp [dropBlanks, h x rfl]

/-- A line that neither begins nor ends with white space is trimmed already. -/
theorem trim_id {l : List Char} (h : ∀ c ∈ l.head?, isBlankChar c = false)
    (h' : ∀ c ∈ l.getLast?, isBlankChar c = false) : trim l = l := by
  unfold trim
  rw [dropBlanks_id h, dropBlanks_id (by simpa using h'), List.reverse_reverse]

/-- The first word ends at the first space. -/
theorem firstWord_append {m r : List Char} (hm : ∀ c ∈ m, isBlankChar c = false)
    (hr : ∀ c ∈ r.head?, isBlankChar c = false) : firstWord (m ++ ' ' :: r) = (m, r) := by
  have e : isBlankChar ' ' = true := rfl
  unfold firstWord
  rw [List.takeWhile_append_of_pos (by simpa using hm), List.dropWhile_append_of_pos (by simpa using hm)]
  simp only [List.takeWhile_cons, List.dropWhile_cons, e, Bool.not_true, Bool.false_eq_true, if_false]
  have : dropBlanks (' ' :: r) = dropBlanks r := rfl
  rw [this, dropBlanks_id hr, List.append_nil]

theorem splitCommas_append {a : List Char} (h : ∀ c ∈ a, c ≠ ',') (b : List Char) :
    splitCommas (a ++ ',' :: b) = a :: splitCommas b := by
  induction a with
  | nil => simp [splitCommas]
  | cons x a ih =>
    rw [List.cons_append, splitCommas, if_neg (h x (by simp)), ih (fun c hc => h c (by simp [hc]))]

theorem splitCommas_single {a : List Char} (h : ∀ c ∈ a, c ≠ ',') : splitCommas a = [a] := by
  induction a with
  | nil => rfl
  | cons x a ih => rw [splitCommas, if_neg (h x (by simp)), ih (fun c hc => h c (by simp [hc]))]

theorem digitValue_decimal : ∀ d : Fin 10, digitValue 10 (digitChar d.val) = some d.val ∧ digitChar d.val ≠ 'x' := by
  decide

theorem digitValue_hex : ∀ d : Fin 16, digitValue 16 (digitChar d.val) = some d.val := by decide

theorem readDigits_decimal (ds : List (Fin 10)) (acc : Nat) :
    readDigits 10 acc (ds.map fun x => digitChar x.val) =
      some (ds.foldl (fun acc x => acc * 10 + x.val) acc) := by
  induction ds generalizing acc with
  | nil => rfl
  | cons d ds ih => simp [readDigits, (digitValue_decimal d).1, ih]

theorem readDigits_hex (ds : List (Fin 16)) (acc : Nat) :
    readDigits 16 acc (ds.map fun x => digitChar x.val) =
      some (ds.foldl (fun acc x => acc * 16 + x.val) acc) := by
  induction ds generalizing acc with
  | nil => rfl
  | cons d ds ih => simp [readDigits, digitValue_hex d, ih]

/-- A written operand reads as the number it stands for (R92). -/
theorem readNumber_text (n : Numeral) : readNumber n.text = some n.value := by
  cases n with
  | decimal d ds =>
    unfold readNumber
    split
    · rename_i h
      simp [Numeral.text] at h
    · rename_i c rest h
      cases ds with
      | nil => simp [Numeral.text] at h
      | cons e ds =>
        simp [Numeral.text] at h
        exact absurd h.2.1 (digitValue_decimal e).2
    · exact readDigits_decimal (d :: ds) 0
  | hex d ds => exact readDigits_hex (d :: ds) 0

end Sys2Proof.Laws
end

