-- ==== Sys2Proof/Laws/Config.lean ====
section
/-! SUPPORT. What a legal configuration gives, check by check (R207), and that the platform's configuration is legal
whatever the free values in it are. -/

namespace Sys2Proof.Laws

open Sys2Proof.Machine

theorem allVelocities_iff {p : Nat → Bool} : allVelocities p = true ↔ ∀ v, v ≤ velMax → p v = true := by
  simp only [allVelocities, List.all_eq_true, List.mem_range, Nat.lt_succ_iff]

section

variable {cfg : Config} (h : configLegal cfg = true)
include h

theorem legal_adcMax : 1 ≤ cfg.adcMax ∧ cfg.adcMax ≤ 65535 := by
  simp only [configLegal, Bool.and_eq_true] at h
  simpa [checkAdcMax] using h.1.1.1.1.1.1.1.1.1

theorem legal_alpha : 0 < cfg.alphaNum ∧ cfg.alphaNum < cfg.alphaDen ∧ cfg.alphaDen ≤ 65535 := by
  simp only [configLegal, Bool.and_eq_true] at h
  simpa [checkAlpha, and_assoc] using h.1.1.1.1.1.1.1.1.2

theorem legal_numWaves : 2 ≤ cfg.numWaves ∧ cfg.numWaves ≤ 65535 := by
  simp only [configLegal, Bool.and_eq_true] at h
  simpa [checkNumWaves] using h.1.1.1.1.1.1.1.2

theorem legal_sampleSize : 1 ≤ cfg.sampleSize ∧ cfg.sampleSize ≤ 65535 := by
  simp only [configLegal, Bool.and_eq_true] at h
  simpa [checkSampleSize] using h.1.1.1.1.1.1.2

theorem legal_waves : cfg.waves.length = cfg.numWaves ∧ ∀ row ∈ cfg.waves, row.length = cfg.sampleSize := by
  simp only [configLegal, Bool.and_eq_true] at h
  simpa [checkWaves] using h.1.1.1.1.1.2

theorem legal_lengths : 1 ≤ cfg.envLen ∧ cfg.envLen ≤ 65535 ∧ cfg.atkV0 ≤ 65535 ∧ cfg.atkV127 ≤ 65535 ∧
    cfg.relV0 ≤ 65535 ∧ cfg.relV127 ≤ 65535 := by
  simp only [configLegal, Bool.and_eq_true] at h
  simpa [checkLengths, and_assoc] using h.1.1.1.1.2

theorem legal_floor : 1 ≤ cfg.floorDen ∧ cfg.floorDen ≤ 65535 ∧ cfg.floorNum ≤ cfg.floorDen := by
  simp only [configLegal, Bool.and_eq_true] at h
  simpa [checkFloor, and_assoc] using h.1.1.1.2

theorem legal_sustain {v : Nat} (hv : v ≤ velMax) :
    attackTime cfg v + releaseTime cfg v ≤ (cfg.envLen : Int) := by
  simp only [configLegal, Bool.and_eq_true] at h
  exact of_decide_eq_true (allVelocities_iff.1 h.1.1.2 v hv)

theorem legal_release {v : Nat} (hv : v ≤ velMax) : 2 ≤ releaseTime cfg v := by
  simp only [configLegal, Bool.and_eq_true] at h
  exact of_decide_eq_true (allVelocities_iff.1 h.1.2 v hv)

theorem legal_hold : cfg.holdRefVelocity ≤ velMax ∧
    attackTime cfg cfg.holdRefVelocity < (cfg.envLen : Int) := by
  simp only [configLegal, Bool.and_eq_true] at h
  simpa [checkHold] using h.2

end

theorem tabulate_length (n s : Nat) (f : Nat → Nat → Sample) : (tabulate n s f).length = n := by
  simp [tabulate]

theorem tabulate_row_length (n s : Nat) (f : Nat → Nat → Sample) :
    ∀ row ∈ tabulate n s f, row.length = s := by
  intro row hrow
  simp only [tabulate, List.mem_map] at hrow
  obtain ⟨k, -, rfl⟩ := hrow
  simp

/-- The segment lengths do not depend on the table, so the velocity checks of the defaults are closed facts. -/
theorem defaults_velocity_checks (n s : Nat) (waves : List (List Sample)) :
    checkSustain (defaults n s waves) = true ∧ checkRelease (defaults n s waves) = true ∧
      checkHold (defaults n s waves) = true :=
  (by decide : checkSustain (defaults 0 0 []) = true ∧ checkRelease (defaults 0 0 []) = true ∧
    checkHold (defaults 0 0 []) = true)

/-- The configuration of State.reset is legal, whatever NUM_WAVES, SAMPLE_SIZE and WAVES are in it (R207, log 7). -/
theorem platform_legal : configLegal platform = true := by
  obtain ⟨h8, h9, h10⟩ := defaults_velocity_checks (2 + Config.freeNumWaves.val) (1 + Config.freeSampleSize.val)
    (tabulate (2 + Config.freeNumWaves.val) (1 + Config.freeSampleSize.val) Config.freeWave)
  have hn := Config.freeNumWaves.isLt
  have hs := Config.freeSampleSize.isLt
  have h3 : checkNumWaves platform = true :=
    (Bool.and_eq_true _ _).mpr ⟨decide_eq_true (show 2 ≤ 2 + Config.freeNumWaves.val by omega),
      decide_eq_true (show 2 + Config.freeNumWaves.val ≤ 65535 by omega)⟩
  have h4 : checkSampleSize platform = true :=
    (Bool.and_eq_true _ _).mpr ⟨decide_eq_true (show 1 ≤ 1 + Config.freeSampleSize.val by omega),
      decide_eq_true (show 1 + Config.freeSampleSize.val ≤ 65535 by omega)⟩
  have h5 : checkWaves platform = true :=
    (Bool.and_eq_true _ _).mpr ⟨decide_eq_true (tabulate_length _ _ _),
      List.all_eq_true.mpr fun row hrow => decide_eq_true (tabulate_row_length _ _ _ row hrow)⟩
  have h1 : checkAdcMax platform = true := rfl
  have h2 : checkAlpha platform = true := rfl
  have h6 : checkLengths platform = true := rfl
  have h7 : checkFloor platform = true := rfl
  simp only [configLegal, Bool.and_eq_true]
  exact ⟨⟨⟨⟨⟨⟨⟨⟨⟨h1, h2⟩, h3⟩, h4⟩, h5⟩, h6⟩, h7⟩, h8⟩, h9⟩, h10⟩

end Sys2Proof.Laws
end

