-- ==== Sys2Proof/Laws/Envelope.lean ====
section
/-! SUPPORT. The bounds of the envelope's segment lengths. -/

namespace Sys2Proof.Laws

open Sys2Proof.Machine

/-- A mapped velocity is not negative and does not exceed both ends of the map. -/
theorem mapVelocity_range {out0 out127 v : Nat} (hv : v ≤ velMax) :
    0 ≤ mapVelocity out0 out127 v ∧ mapVelocity out0 out127 v ≤ max (out0 : Int) (out127 : Int) := by
  have hv' : v ≤ 127 := hv
  apply roundHalfEven_between (by omega)
  · nlinarith
  · rcases Nat.le_total out0 out127 with h | h
    · rw [max_eq_right (by exact_mod_cast h)]
      nlinarith
    · rw [max_eq_left (by exact_mod_cast h)]
      nlinarith

/-- The segment lengths of a legal configuration (R131 to R134). -/
theorem segments_legal {cfg : Config} (h : configLegal cfg = true) {v : Nat} (hv : v ≤ velMax) :
    0 ≤ attackTime cfg v ∧ attackTime cfg v ≤ 65535 ∧ 2 ≤ releaseTime cfg v ∧ releaseTime cfg v ≤ 65535 ∧
      0 ≤ sustainTime cfg v ∧ attackTime cfg v + sustainTime cfg v + releaseTime cfg v = cfg.envLen := by
  have l := legal_lengths h
  have a := mapVelocity_range (out0 := cfg.atkV0) (out127 := cfg.atkV127) hv
  have b := mapVelocity_range (out0 := cfg.relV0) (out127 := cfg.relV127) hv
  have c := legal_sustain h hv
  have d := legal_release h hv
  unfold sustainTime attackTime releaseTime at *
  refine ⟨a.1, ?_, d, ?_, ?_, ?_⟩ <;> omega

end Sys2Proof.Laws
end

