-- ==== Sys2Proof/Laws/Mixer.lean ====
section
/-! SUPPORT. What the mixer's functions give for a legal configuration and arguments in range. -/

namespace Sys2Proof.Laws

open Sys2Proof.Machine

/-- A read of WAVES at k·S + i is sample i of row k (R60). -/
theorem waveRead_row {cfg : Config} (h : configLegal cfg = true) {k i : Nat} (hk : k < cfg.numWaves)
    (hi : i < cfg.sampleSize) :
    ∃ row, cfg.waves[k]? = some row ∧ row[i]? = some (waveRead cfg (k * cfg.sampleSize + i)) := by
  obtain ⟨h1, h2⟩ := legal_waves h
  have hk' : k < cfg.waves.length := by omega
  refine ⟨cfg.waves[k], List.getElem?_eq_getElem hk', ?_⟩
  have e1 : (k * cfg.sampleSize + i) / cfg.sampleSize = k := by
    rw [Nat.mul_comm, Nat.mul_add_div (by omega), Nat.div_eq_of_lt hi, Nat.add_zero]
  have e2 : (k * cfg.sampleSize + i) % cfg.sampleSize = i := by
    rw [Nat.mul_comm, Nat.mul_add_mod, Nat.mod_eq_of_lt hi]
  have hl : i < (cfg.waves[k]).length := by rw [h2 _ (List.getElem_mem _)]; exact hi
  unfold waveRead
  rw [e1, e2, List.getElem?_eq_getElem hk']
  simp [hl]

/-- The wave index is a row with a neighbour (R112). -/
theorem mixIndex_range {cfg : Config} (h : configLegal cfg = true) {a : Int} (h0 : 0 ≤ a)
    (h1 : a ≤ cfg.adcMax) : 0 ≤ mixIndex cfg a ∧ mixIndex cfg a ≤ cfg.numWaves - 2 := by
  have hn := legal_numWaves h
  have hr := legal_adcMax h
  have := floorDiv_between (a := ((cfg.numWaves : Int) - 1) * a) (b := cfg.adcMax) (lo := 0)
    (hi := cfg.numWaves - 1) (by omega) (by nlinarith) (by nlinarith)
  unfold mixIndex
  omega

/-- The clamp of the mix numerator does nothing in range (R113). -/
theorem mixNumerator_of_mem {cfg : Config} {b : Int} (h0 : 0 ≤ b) (h1 : b ≤ cfg.adcMax) :
    mixNumerator cfg b = b := clamp_of_mem h0 h1

/-- At m = 0 the interpolation is its first sample (R121). -/
theorem interpolate_zero {cfg : Config} (h : configLegal cfg = true) (w0 w1 : Int) :
    interpolate cfg 0 w0 w1 = w0 := by
  have := legal_adcMax h
  simp only [interpolate, truncDiv, Int.sub_zero, Int.zero_mul, Int.add_zero]
  exact Int.mul_tdiv_cancel_left w0 (by omega)

/-- At m = R the interpolation is its second sample (R121). -/
theorem interpolate_top {cfg : Config} (h : configLegal cfg = true) (w0 w1 : Int) :
    interpolate cfg cfg.adcMax w0 w1 = w1 := by
  have := legal_adcMax h
  simp only [interpolate, truncDiv, Int.sub_self, Int.zero_mul, Int.zero_add]
  exact Int.mul_tdiv_cancel_left w1 (by omega)

end Sys2Proof.Laws
end

