-- ==== Sys2Proof/Laws/PerInstr.lean ====
section
/-! SUPPORT. The per-instruction family RowPattern: the word of a command has the pattern of its row under the row's
mask, so the row selects it (R82). One lemma per constructor. -/

namespace Sys2Proof.Laws

/-- The row of the opcode map that stands for a command (R82). -/
def rowOf : Instr → OpRow
  | .noteon _ _ => ⟨.noteon, 0xFFFF8080#32, 0x10000000#32⟩
  | .noteoff _ => ⟨.noteoff, 0xFFFF80FF#32, 0x20000000#32⟩
  | .knoba _ => ⟨.knoba, 0xFFFF0000#32, 0x30000000#32⟩
  | .knobb _ => ⟨.knobb, 0xFFFF0000#32, 0x40000000#32⟩
  | .mix => ⟨.mix, 0xFFFFFFFF#32, 0x50000000#32⟩

/-- The row of a well-formed command is in the map and selects the command's word. -/
def RowPattern.Statement (i : Instr) : Prop :=
  i.wf = true → rowOf i ∈ opcodeMap ∧ (rowOf i).selects (encode i) = true

@[simp] theorem wf_noteon (note vel : Nat) :
    (Instr.noteon note vel).wf = true ↔ note ≤ 127 ∧ vel ≤ 127 := by
  simp only [Instr.wf, Bool.and_eq_true, decide_eq_true_eq]
  exact Iff.rfl

@[simp] theorem wf_noteoff (note : Nat) : (Instr.noteoff note).wf = true ↔ note ≤ 127 := by
  simp only [Instr.wf, decide_eq_true_eq]
  exact Iff.rfl

@[simp] theorem wf_knoba (raw : Nat) : (Instr.knoba raw).wf = true ↔ raw ≤ 65535 := by
  simp only [Instr.wf, decide_eq_true_eq]
  exact Iff.rfl

@[simp] theorem wf_knobb (raw : Nat) : (Instr.knobb raw).wf = true ↔ raw ≤ 65535 := by
  simp only [Instr.wf, decide_eq_true_eq]
  exact Iff.rfl

@[simp] theorem wf_mix : Instr.mix.wf = true := rfl

/-- A number of at most k bits as a 32-bit word. -/
theorem ofNat32_of_lt {k n : Nat} (hk : k ≤ 32) (h : n < 2 ^ k) :
    BitVec.ofNat 32 n = (BitVec.ofNat k n).setWidth 32 := by
  apply BitVec.eq_of_toNat_eq
  have : 2 ^ k ≤ 2 ^ 32 := Nat.pow_le_pow_right (by omega) hk
  rw [BitVec.toNat_setWidth, BitVec.toNat_ofNat, BitVec.toNat_ofNat, Nat.mod_eq_of_lt h]

theorem noteon_masked (x y : BitVec 7) :
    (0x10000000#32 ||| (x.setWidth 32 <<< 8) ||| y.setWidth 32) &&& 0xFFFF8080#32 = 0x10000000#32 := by
  ext i hi
  interval_cases i <;> simp

theorem noteoff_masked (x : BitVec 7) :
    (0x20000000#32 ||| (x.setWidth 32 <<< 8)) &&& 0xFFFF80FF#32 = 0x20000000#32 := by
  ext i hi
  interval_cases i <;> simp

theorem knoba_masked (x : BitVec 16) :
    (0x30000000#32 ||| x.setWidth 32) &&& 0xFFFF0000#32 = 0x30000000#32 := by
  ext i hi
  interval_cases i <;> simp

theorem knobb_masked (x : BitVec 16) :
    (0x40000000#32 ||| x.setWidth 32) &&& 0xFFFF0000#32 = 0x40000000#32 := by
  ext i hi
  interval_cases i <;> simp

theorem RowPattern.noteon (note vel : Nat) : RowPattern.Statement (.noteon note vel) := by
  intro h
  rw [wf_noteon] at h
  refine ⟨by simp [rowOf, opcodeMap], ?_⟩
  simp only [rowOf, OpRow.selects, encode, beq_iff_eq]
  rw [ofNat32_of_lt (k := 7) (by omega) (by omega : note < 2 ^ 7),
    ofNat32_of_lt (k := 7) (by omega) (by omega : vel < 2 ^ 7)]
  exact noteon_masked _ _

theorem RowPattern.noteoff (note : Nat) : RowPattern.Statement (.noteoff note) := by
  intro h
  rw [wf_noteoff] at h
  refine ⟨by simp [rowOf, opcodeMap], ?_⟩
  simp only [rowOf, OpRow.selects, encode, beq_iff_eq]
  rw [ofNat32_of_lt (k := 7) (by omega) (by omega : note < 2 ^ 7)]
  exact noteoff_masked _

theorem RowPattern.knoba (raw : Nat) : RowPattern.Statement (.knoba raw) := by
  intro h
  rw [wf_knoba] at h
  refine ⟨by simp [rowOf, opcodeMap], ?_⟩
  simp only [rowOf, OpRow.selects, encode, beq_iff_eq]
  rw [ofNat32_of_lt (k := 16) (by omega) (by omega : raw < 2 ^ 16)]
  exact knoba_masked _

theorem RowPattern.knobb (raw : Nat) : RowPattern.Statement (.knobb raw) := by
  intro h
  rw [wf_knobb] at h
  refine ⟨by simp [rowOf, opcodeMap], ?_⟩
  simp only [rowOf, OpRow.selects, encode, beq_iff_eq]
  rw [ofNat32_of_lt (k := 16) (by omega) (by omega : raw < 2 ^ 16)]
  exact knobb_masked _

theorem RowPattern.mix : RowPattern.Statement .mix :=
  fun _ => ⟨by simp [rowOf, opcodeMap], by decide⟩

end Sys2Proof.Laws
end

