-- ==== Sys2Proof/Laws/Renderer.lean ====
section
/-! SUPPORT. What a read that races a list of actions sees: the stores of a rewrite, the split at an event, the reads
before a reset completes. -/

namespace Sys2Proof.Laws

open Sys2Proof.Machine

theorem storesTo_append (b : Buffer) (i : Nat) (x y : List Action) :
    storesTo b i (x ++ y) = storesTo b i x ++ storesTo b i y := by
  simp [storesTo]

/-- A rewrite stores to each of its samples once. -/
theorem storesTo_rewrite (b b' : Buffer) (f : Nat → Sample) (n a : Nat) :
    storesTo b' a (rewriteActions b f n) = if b' = b ∧ a < n then [f a] else [] := by
  induction n with
  | zero => simp [rewriteActions, storesTo]
  | succ n ih =>
    rw [rewriteActions_succ, storesTo_append, ih]
    by_cases hb : b' = b
    · subst hb
      by_cases h1 : a = n
      · subst h1
        simp [storesTo]
      · have h2 : ¬ n = a := fun h => h1 h.symm
        have h3 : a < n + 1 ↔ a < n := by omega
        simp [storesTo, h2, h3]
    · have h2 : ¬ b = b' := fun h => hb h.symm
      simp [storesTo, hb, h2]

/-- A rewrite emits nothing, so a split at an event passes over it. -/
theorem splitAtEvent_rewrite (b : Buffer) (f : Nat → Sample) (n m : Nat) (rest : List Action) :
    splitAtEvent (m + 1) (rewriteActions b f n ++ rest) =
      (rewriteActions b f n ++ (splitAtEvent (m + 1) rest).1, (splitAtEvent (m + 1) rest).2) := by
  have key : ∀ l : List Nat, splitAtEvent (m + 1) ((l.map fun i => Action.store b i (f i)) ++ rest) =
      ((l.map fun i => Action.store b i (f i)) ++ (splitAtEvent (m + 1) rest).1,
        (splitAtEvent (m + 1) rest).2) := by
    intro l
    induction l with
    | nil => rfl
    | cons x l ih => simp [splitAtEvent, ih]
  exact key _

/-- `anySample` is every value of 16 bits. -/
theorem mem_anySample (v : Sample) : v ∈ anySample :=
  List.mem_map.2 ⟨v.toNat, List.mem_range.2 v.isLt, by simp⟩

/-- Before a reset completes every value is admitted for every read (R208). -/
theorem mem_readsServing_reset {input : HostInput} (h : input.resetConfig ≠ none) (s : State) (n : Nat) (b : Buffer)
    (i : Nat) (v : Sample) : v ∈ readsServing s input n b i := by
  cases input with
  | command w => exact absurd rfl h
  | reset cfg => exact mem_anySample v
  | resetDuring w cfg => exact mem_anySample v

end Sys2Proof.Laws
end

