-- ==== Sys2Proof/Tests/Slice0.lean ====
section
/-! SUPPORT. The model's own tests, their expected values from spec/95_test_vectors.md (named TV below) or worked out
by hand from the rules, and for every statement with hypotheses a witness that meets them. -/

namespace Sys2Proof.Tests

open Sys2Proof.Machine Sys2Proof.Laws

/-! The configurations TC1 and TC2 of TV, and the states after reset with them. -/

def row (l : List Int) : List Sample := l.map narrow16

def tc1 : Config :=
  defaults 3 4 [row [0, 1000, -1000, 32767], row [3, -3, 32767, -32768], row [-32768, 7, 0, 100]]

def tc2 : Config :=
  { defaults 3 3 [row [0, 10, -10], row [4, -10, 10], row [100, 0, -1]] with adcMax := 4 }

/-- TC2 with an envelope of 6 samples: attack 2, filler 1, release 3 for every velocity. -/
def tcShort : Config := { tc2 with envLen := 6, atkV0 := 2, atkV127 := 2, relV0 := 3, relV127 := 3 }

def base1 : State := State.afterReset tc1 [] 0
def base2 : State := State.afterReset tc2 [] 0
def baseShort : State := State.afterReset tcShort [] 0
def halted : State := State.afterHalt { tc2 with numWaves := 1 } [] [] 0

def nextOf (o : Host.Outcome State Fault Refusal) : State :=
  match o with
  | .next s => s
  | _ => base2

def liveOf (s : State) : List Int := (List.range s.cfg.sampleSize).map fun i => (s.live.read i).toInt
def envOf (s : State) : List Int := (List.range s.cfg.envLen).map fun i => (s.env.read i).toInt

/-! WellFormed: one ill-formed term for each check. -/

theorem test_wf_refuses_note_of_noteon : (Instr.noteon 128 0).wf = false := by decide
theorem test_wf_refuses_velocity : (Instr.noteon 0 128).wf = false := by decide
theorem test_wf_refuses_note_of_noteoff : (Instr.noteoff 128).wf = false := by decide
theorem test_wf_refuses_raw_of_knoba : (Instr.knoba 65536).wf = false := by decide
theorem test_wf_refuses_raw_of_knobb : (Instr.knobb 65536).wf = false := by decide

/-! Decode: words written out from R81 and R82 (TV 2.1). -/

theorem test_decode_noteon : decodeTableWord 32 0x10003C64 = some (.noteon 60 100) := by decide
theorem test_decode_noteon_velocity_zero : decodeTableWord 32 0x10007F00 = some (.noteon 127 0) := by decide
theorem test_decode_noteoff : decodeTableWord 32 0x20004000 = some (.noteoff 64) := by decide
theorem test_decode_knoba : decodeTableWord 32 0x3000FFFF = some (.knoba 65535) := by decide
theorem test_decode_knobb : decodeTableWord 32 0x40000060 = some (.knobb 96) := by decide
theorem test_decode_mix : decodeTableWord 32 0x50000000 = some .mix := by decide

theorem test_decode_refuses_reserved_words :
    [0x10003CE4, 0x1000BC64, 0x10013C64, 0x20004001, 0x3001FFFF, 0x50000001, 0x00000000, 0x60000000,
      0xF0000000].map (decodeTableWord 32) = List.replicate 9 none := by decide

theorem test_illegal_reason_bits : decode 0x20004001#32 = .error .reservedBits := by rfl
theorem test_illegal_reason_opcode : decode 0x60000000#32 = .error .reservedOpcode := by rfl

theorem test_encode_follows_the_syntax_table :
    [Instr.noteon 60 100, .noteoff 64, .knoba 65535, .knobb 96, .mix].map encode =
      [0x10003C64#32, 0x20004000#32, 0x3000FFFF#32, 0x40000060#32, 0x50000000#32] := by decide

/-! Knob Smoother (TV 2.2). -/

theorem test_knoba_rounds_up_toward_raw :
    (nextOf (exec (.knoba 65535) { base1 with knobA := 13107#16 })).knobA = 23593#16 := by decide
theorem test_knoba_clamps_raw : (nextOf (exec (.knoba 65535) base2)).knobA = 1#16 := by decide
theorem test_knobb_rounds_down_toward_raw :
    (nextOf (exec (.knobb 96) { base1 with knobB := 100#16 })).knobB = 99#16 := by decide
theorem test_knobb_leaves_knob_a :
    (nextOf (exec (.knobb 0) { base1 with knobA := 9#16, knobB := 7#16 })).knobB = 5#16 ∧
      (nextOf (exec (.knobb 0) { base1 with knobA := 9#16, knobB := 7#16 })).knobA = 9#16 := by decide

/-! Wavetable Mixer (TV 2.3, TC1 rows 3 and 10). -/

theorem test_mix_half : liveOf (nextOf (exec .mix { base1 with knobB := 32768#16 })) = [1, 498, 15883, -1] := by
  decide
theorem test_mix_clamps_index_and_truncates_negatives :
    liveOf (nextOf (exec .mix { base1 with knobA := 65535#16, knobB := 32767#16 })) = [-16382, 1, 16383, -16334] ∧
      (nextOf (exec .mix { base1 with knobA := 65535#16, knobB := 32767#16 })).diagIndex = 1#16 := by decide

/-! Envelope Generator (TV 2.4). -/

theorem test_segment_lengths :
    [0, 10, 64, 90, 100, 127].map (attackTime tc2) = [99, 95, 74, 64, 60, 50] ∧
      [0, 10, 64, 90, 100, 127].map (releaseTime tc2) = [50, 54, 75, 85, 89, 99] := by decide
theorem test_envelope_samples_of_velocity_10 :
    [0, 1, 94, 95, 146, 147, 198, 199].map (envValue tc2 10) =
      [3276, 3587, 32456, 32767, 32767, 31542, 11, 0] := by decide

/-! Note State Machine (TV 2.5); the short envelope by hand from R138 to R140: floor 3276 of PEAK, then half of the
way to PEAK, PEAK, and the release 1, 1/4, 0 of PEAK. -/

theorem test_noteon_rewrites_env :
    envOf (nextOf (exec (.noteon 60 100) { baseShort with env := [] })) = [3276, 18021, 32767, 32767, 8191, 0] := by
  decide
theorem test_noteon_presses :
    eventWords (nextOf (exec (.noteon 60 100) base2)) = [0x10000063#32, 0x20003C00#32] ∧
      (nextOf (exec (.noteon 60 100) base2)).noteState = .sounding 60#7 ∧
      (nextOf (exec (.noteon 60 100) base2)).led = true := by decide
theorem test_noteoff_of_the_sounding_note :
    (nextOf (exec (.noteoff 64) { base2 with noteState := .sounding 64#7, led := true })).noteState = .idle ∧
      eventWords (nextOf (exec (.noteoff 64) { base2 with noteState := .sounding 64#7, led := true })) =
        [0x30004000#32] := by decide
theorem test_noteoff_of_another_note :
    (nextOf (exec (.noteoff 60) { base2 with noteState := .sounding 64#7, led := true })).noteState =
        .sounding 64#7 ∧
      (nextOf (exec (.noteoff 60) { base2 with noteState := .sounding 64#7, led := true })).led = false := by decide

/-! Reset and configuration (TV 2.6), the read port (TV P1, P4), the platform's reset. -/

theorem tc1_legal : configLegal tc1 = true := by decide
theorem tc2_legal : configLegal tc2 = true := by decide
theorem tcShort_legal : configLegal tcShort = true := by decide

theorem test_config_errors :
    [{ tc2 with envLen := 148 }, { tc2 with envLen := 149 }, { tc2 with numWaves := 1 }, { tc2 with relV0 := 1 },
      { tc2 with alphaNum := 5 }].map configLegal = [false, true, false, false, false] := by decide
theorem test_reset_loads_live : liveOf base2 = [0, 10, -10] := by decide
theorem test_reset_hold_index : State.reset.holdIndex = 99#16 := by decide
theorem test_status_word :
    readPort { base2 with noteState := .sounding 60#7, led := true } 0#8 = 0x3C03#16 ∧
      readPort { base2 with noteState := .sounding 70#7, cmdErr := true } 0#8 = 0x4605#16 := by decide
theorem test_platform_runs_a_word :
    (nextOf (step (State.reset.withFetchWord 32 0x10003C64))).noteState = .sounding 60#7 := by decide

/-! A command that reset cuts short (R206): of a NOTEON that had emitted one event and of whose writes the first took
effect, ENV[0] and ENV_INSTALL are left and no PRESS. -/

theorem test_cut_noteon_leaves_whole_first_events :
    survivingActions (fun pos => pos == 0) 0 1 (commandActions { baseShort with env := [] } (.noteon 60 100)) =
      [.store .env 0 3276#16, .emit (.envInstall 2#16)] := by decide
theorem test_cut_illegal_word : survivingActions (fun _ => true) 0 0 (wordActions base2 0#32) = [.setCmdErr] := by decide

/-! Assembler (R92, R93; TV P1). -/

theorem test_assemble_noteon :
    assemble ['N', 'o', 't', 'e', 'O', 'n', ' ', '0', 'x', '3', 'c', ',', ' ', '1', '0', '0', ' ', ';', 'x'] =
      .ok [0x10003C64#32] := by rfl
theorem test_assemble_cycle :
    assemble ['c', 'y', 'c', 'l', 'e', ' ', 'n', 'o', 't', 'e', 'o', 'n', ' ', '6', '0', ',', '1', '0', '0', ',',
      '4', ',', '4'] = .ok [0x10003C64#32, 0x30000004#32, 0x40000004#32, 0x50000000#32] := by rfl
theorem test_assemble_range_error :
    assemble ['n', 'o', 't', 'e', 'o', 'f', 'f', ' ', '1', '2', '8'] = .error .operandRange := by rfl
theorem test_assemble_bad_line : assemble ['n', 'o', 't', 'e', 'o', 'n', ' ', '5'] = .error .badLine := by rfl
theorem test_assemble_word_given_legal_or_not :
    assemble ['.', 'w', 'o', 'r', 'd', ' ', '0'] = .ok [0#32] := by rfl

/-! Witnesses: a state and operands that meet the hypotheses of each statement. -/

theorem base2_registers : base2.RegistersInRange := by
  constructor <;> decide

theorem resetLive_wf (cfg : Config) : (resetLive cfg).wf = true := writeSeq_wf rfl _ _
theorem resetEnv_wf (cfg : Config) : (resetEnv cfg).wf = true := writeSeq_wf rfl _ _
theorem resetLive_within (cfg : Config) : (resetLive cfg).within cfg.sampleSize = true :=
  writeSeq_within rfl _ (Nat.le_refl _)
theorem resetEnv_within (cfg : Config) : (resetEnv cfg).within cfg.envLen = true :=
  writeSeq_within rfl _ (Nat.le_refl _)
theorem resetEnv_read (cfg : Config) {i : Nat} (hi : i < cfg.envLen) :
    (resetEnv cfg).read i = envSample cfg cfg.holdRefVelocity i :=
  (read_writeSeq (m := []) rfl _ _ i).trans (if_pos hi)

theorem base2_env : base2.env = resetEnv tc2 := by rw [base2, afterReset_env]
theorem base2_cfg : base2.cfg = tc2 := rfl
theorem base2_live_wf : base2.live.wf = true := by rw [base2, afterReset_live]; exact resetLive_wf tc2
theorem base2_env_wf : base2.env.wf = true := by rw [base2_env]; exact resetEnv_wf tc2
theorem base2_env_within : base2.env.within base2.cfg.envLen = true := by
  rw [base2_env, base2_cfg]; exact resetEnv_within tc2
theorem base2_envelope : base2.EnvelopeWhole := by
  refine ⟨tc2.holdRefVelocity, by decide, fun i hi => ?_⟩
  rw [base2_env, base2_cfg]
  rw [base2_cfg] at hi
  exact resetEnv_read tc2 hi
theorem step_reset_legal {cfg : Config} (h : configLegal cfg = true) {s : State} {rest : List HostInput}
    (hs : s.inputs = .reset cfg :: rest) : step s = .next (State.afterReset cfg rest s.freeCount) := by
  rw [step, serveInput, hs]
  show Host.Outcome.next (resetBlock cfg (takeInput s)) = _
  rw [resetBlock_legal h]
  simp [takeInput, hs]
theorem step_resetDuring {w : Word} {cfg : Config} {s : State} {rest : List HostInput}
    (hs : s.inputs = .resetDuring w cfg :: rest) : step s = .next (resetDuringWord w cfg (takeInput s)) := by
  rw [step, serveInput, hs]

theorem base2_inv : base2.Inv := by
  refine ⟨fun _ => ?_, fun h => absurd h (by decide)⟩
  refine ⟨tc2_legal, base2_registers, ⟨base2_live_wf, resetLive_within tc2, base2_env_wf, base2_env_within⟩,
    rfl, base2_envelope, fun i hi => ?_, fun h => absurd h (by decide), trivial⟩
  · have hi3 : i < 3 := hi
    have : ∀ j, j < 3 → base2.live.read j = mixSample tc2 (regValue base2.diagIndex) (regValue base2.diagMix) j := by
      decide
    exact this i hi3

theorem inv_withInputs {s : State} (hi : s.Inv) (hc : s.cfgErr = false) (l : List HostInput) :
    ({ s with inputs := l } : State).Inv := by
  have h := hi.1 hc
  refine ⟨fun _ => ?_, fun hc' => absurd (hc.symm.trans hc') (by decide)⟩
  exact ⟨h.legal, ⟨h.registers.1, h.registers.2, h.registers.3, h.registers.4, h.registers.5⟩,
    ⟨h.buffers.1, h.buffers.2, h.buffers.3, h.buffers.4⟩, h.hold, h.envelope, h.live, h.led, h.stream⟩

theorem witness_DecodeOfEncodeIsTheCommand :
    (Instr.noteon 127 127).wf = true ∧ (Instr.noteoff 0).wf = true ∧ (Instr.knoba 65535).wf = true ∧
      (Instr.knobb 65535).wf = true ∧ Instr.mix.wf = true := by decide
theorem witness_EncodeOfDecodeIsTheWord : decode 0x10007F7F#32 = .ok (.noteon 127 127) := by rfl
theorem witness_WordIsIllegalExactlyWhenReserved :
    decode 0x00000000#32 = .error .reservedOpcode ∧ decode 0x60000000#32 = .error .reservedOpcode ∧
      decode 0x5FFF0000#32 = .error .reservedBits ∧ decode 0x10008000#32 = .error .reservedBits ∧
      decode 0x20000080#32 = .error .reservedBits ∧ decode 0x20000001#32 = .error .reservedBits ∧
      decode 0x50000001#32 = .error .reservedBits := ⟨rfl, rfl, rfl, rfl, rfl, rfl, rfl⟩
theorem witness_AtMostOneRowSelectsAWord :
    (⟨.mix, 0xFFFFFFFF#32, 0x50000000#32⟩ : OpRow) ∈ opcodeMap ∧
      OpRow.selects ⟨.mix, 0xFFFFFFFF#32, 0x50000000#32⟩ 0x50000000#32 = true := by decide
/-- Each clause at a selected word, a word no row selects, and a row that does not select the word. -/
theorem witness_AtMostOneRowSelectsAWord_clauses :
    decode 0x50000000#32 = .ok .mix ∧ assembleOperands .mix 0x50000000#32 = .mix ∧
      OpRow.selects ⟨.mix, 0xFFFFFFFF#32, 0x50000000#32⟩ 0x50000001#32 = false ∧
      decode 0x50000001#32 = .error .reservedBits := ⟨rfl, rfl, rfl, rfl⟩
theorem witness_StepRunsTheDecodedCommand :
    base2.cfgErr = false ∧ { base2 with inputs := [.command 0x50000000#32] }.inputs = .command 0x50000000#32 :: [] ∧
      decode 0x50000000#32 = .ok .mix := ⟨rfl, rfl, rfl⟩
theorem witness_IllegalWordOnlySetsCmdErr :
    base2.cfgErr = false ∧
      { base2 with inputs := [.command 0x20004001#32, .command 0x50000000#32] }.inputs =
        .command 0x20004001#32 :: [.command 0x50000000#32] ∧
      decode 0x20004001#32 = .error .reservedBits ∧ decode 0x50000000#32 = .ok .mix := ⟨rfl, rfl, rfl, rfl⟩
/-- A failed check; a halted block with an empty queue and with a word; both resets that leave the halt. -/
theorem witness_FailedChecksHaltTheBlock :
    configLegal { tc2 with numWaves := 1 } = false ∧ halted.cfgErr = true ∧ nextReset halted = none ∧
      nextReset { halted with inputs := [.command 0x50000000#32] } = none ∧
      (∃ t, step { halted with inputs := [.reset tc2] } = .next t ∧ t.cfgErr = false) ∧
      ∃ t, step { halted with inputs := [.resetDuring 0x50000000#32 tc2] } = .next t ∧ t.cfgErr = false := by
  refine ⟨by decide, rfl, rfl, rfl, ⟨_, step_reset_legal tc2_legal rfl, rfl⟩, ⟨_, step_resetDuring rfl, ?_⟩⟩
  rw [resetDuringWord_halted rfl, resetBlock_legal tc2_legal]
  rfl
/-- An illegal word, a reset between commands, a reset during a command. -/
theorem witness_ErrorBitsChangeOnlyAsTheirRuleSays :
    nextReset { base2 with inputs := [.command 0#32] } = none ∧
    (∃ t, step { base2 with inputs := [.command 0#32] } = .next t ∧ base2.cmdErr = false ∧ t.cmdErr = true) ∧
      step { base2 with inputs := [.reset tc2] } = .next base2 ∧
      (∃ t, step { base2 with inputs := [.resetDuring 0#32 tc2] } = .next t) ∧
      nextReset { base2 with inputs := [.resetDuring 0#32 tc2] } = some tc2 :=
  ⟨rfl, ⟨_, rfl, rfl, rfl⟩, step_reset_legal tc2_legal rfl, ⟨_, step_resetDuring rfl⟩, rfl⟩
theorem witness_HoldIndexIsConstantUntilReset :
    (∃ t, step { base2 with inputs := [.command 0x10003C64#32] } = .next t) ∧
      nextReset { base2 with inputs := [.command 0x10003C64#32] } = none ∧ configLegal tc2 = true :=
  ⟨⟨_, rfl⟩, rfl, tc2_legal⟩
theorem witness_IdleBlockHoldsItsState : base2.cfgErr = false ∧ base2.inputs = [] := ⟨rfl, rfl⟩
theorem witness_ResetInputRunsTheResetProcedure :
    { halted with inputs := [.reset tc2, .command 0#32] }.inputs = .reset tc2 :: [.command 0#32] ∧
      { base2 with inputs := [.resetDuring 0#32 tc2] }.inputs = .resetDuring 0#32 tc2 :: [] ∧
      base2.cfgErr = false ∧ halted.cfgErr = true := ⟨rfl, rfl, rfl, rfl⟩
/-- A NOTEON cut short by a legal reset, by a failed one, and one that a halted block has not taken. -/
theorem witness_ResetDuringACommandAbandonsIt :
    { base2 with inputs := [.resetDuring 0x10003C64#32 tc2] }.inputs = .resetDuring 0x10003C64#32 tc2 :: [] ∧
      configLegal tc2 = true ∧ configLegal { tc2 with numWaves := 1 } = false ∧ base2.cfgErr = false ∧
      (∃ u, runWord 0x10003C64#32 base2 = .next u) ∧ halted.cfgErr = true :=
  ⟨rfl, tc2_legal, by decide, rfl, ⟨_, rfl⟩, rfl⟩
theorem witness_LegalResetLeavesTheResetValues : configLegal tc2 = true := tc2_legal
theorem witness_LegalResetLoadsBothBuffers :
    configLegal tc2 = true ∧ 0 < tc2.sampleSize ∧ 2 < tc2.sampleSize ∧ 199 < tc2.envLen :=
  ⟨tc2_legal, by decide, by decide, by decide⟩
theorem witness_ConfigurationIsLegalExactlyWhenTheChecksHold :
    (2 : Nat) ≤ 2 ∧ (1 : Nat) ≤ 1 ∧ [[0#16], [1#16]].length = 2 ∧ ∀ r ∈ [[0#16], [1#16]], r.length = 1 := by
  decide
theorem witness_KnobaSmoothsItsKnob :
    configLegal base2.cfg = true ∧ base2.knobA.toNat ≤ base2.cfg.adcMax ∧ base1.cfg = defaults 3 4 base1.cfg.waves ∧
      base1.knobA = 0#16 ∧ opField 0x3000FFFF#32 = 3 ∧ (0x3000FFFF#32).extractLsb' 16 12 = 0#12 ∧
      opField 0x30010000#32 = 3 ∧ (0x30010000#32).extractLsb' 16 12 ≠ 0#12 :=
  ⟨tc2_legal, by decide, rfl, rfl, by decide, by decide, by decide, by decide⟩
theorem witness_KnobbSmoothsItsKnob :
    configLegal base2.cfg = true ∧ base2.knobB.toNat ≤ base2.cfg.adcMax ∧
      { base1 with knobB := 100#16 }.cfg = defaults 3 4 base1.cfg.waves ∧ { base1 with knobB := 100#16 }.knobB = 100#16 ∧
      opField 0x4000FFFF#32 = 4 ∧ (0x4000FFFF#32).extractLsb' 16 12 = 0#12 ∧
      opField 0x48000000#32 = 4 ∧ (0x48000000#32).extractLsb' 16 12 ≠ 0#12 :=
  ⟨tc2_legal, by decide, rfl, rfl, by decide, by decide, by decide, by decide⟩
/-- s < r at (0, ADC_MAX), r < s at (ADC_MAX, 0). -/
theorem witness_SmoothStaysBetweenItsArguments :
    configLegal tc1 = true ∧ (0 : Int) ≤ 0 ∧ (65535 : Int) ≤ tc1.adcMax ∧ (0 : Int) < 65535 :=
  ⟨tc1_legal, by decide, by decide, by decide⟩
/-- s ≠ r at (0, 4); |r − s|·ALPHA_NUM < ALPHA_DEN at (3, 4), where the distance is 1. -/
theorem witness_RepeatedKnobCommandsReachTheSample :
    configLegal base2.cfg = true ∧ base2.RegistersInRange ∧ (0 : Int) ≠ 4 ∧ (4 : Int) ≤ tc2.adcMax ∧
      |(4 : Int) - 3| * tc2.alphaNum < tc2.alphaDen := ⟨tc2_legal, base2_registers, by decide, by decide, by decide⟩
theorem witness_MixRecomputesLive :
    configLegal base2.cfg = true ∧ base2.RegistersInRange ∧ base2.live.wf = true ∧ 2 < base2.cfg.sampleSize ∧
      ¬ (Space.live = Space.live ∧ 3 < base2.cfg.sampleSize) ∧
      opField 0x50000000#32 = 5 ∧ (0x50000000#32).extractLsb' 0 28 = 0#28 ∧
      opField 0x58000000#32 = 5 ∧ (0x58000000#32).extractLsb' 0 28 ≠ 0#28 :=
  ⟨tc2_legal, base2_registers, base2_live_wf, by decide, by decide, by decide, by decide, by decide, by decide⟩
/-- i at 0 and at S - 1; another table that agrees on rows 0 and 1. -/
theorem witness_WaveReadsStayInsideTheTable :
    configLegal base2.cfg = true ∧ base2.RegistersInRange ∧ base2.live.wf = true ∧ 0 < base2.cfg.sampleSize ∧
      2 < base2.cfg.sampleSize ∧ currentIndex base2 = 0 ∧
      (tc2.waves.set 2 []) ≠ base2.cfg.waves ∧ (tc2.waves.set 2 [])[0]? = base2.cfg.waves[0]? ∧
      (tc2.waves.set 2 [])[1]? = base2.cfg.waves[1]? :=
  ⟨tc2_legal, base2_registers, base2_live_wf, by decide, by decide, by decide, by decide, by decide, by decide⟩
theorem witness_InterpolationStaysBetweenItsSamples :
    configLegal tc1 = true ∧ (0 : Int) ≤ 65535 ∧ (65535 : Int) ≤ tc1.adcMax := ⟨tc1_legal, by decide, by decide⟩
/-- KNOB_A = 0 and KNOB_B = 0 in `base2`; both at ADC_MAX in the second state. -/
theorem witness_MixEndpointsAreExact :
    configLegal base2.cfg = true ∧ base2.RegistersInRange ∧ base2.live.wf = true ∧ base2.knobA.toNat = 0 ∧
      base2.knobB.toNat = 0 ∧ { base2 with knobA := 4#16, knobB := 4#16 }.RegistersInRange ∧
      { base2 with knobA := 4#16, knobB := 4#16 }.knobA.toNat = base2.cfg.adcMax ∧
      { base2 with knobA := 4#16, knobB := 4#16 }.knobB.toNat = base2.cfg.adcMax ∧ (∃ t, exec .mix base2 = .next t) := by
  refine ⟨tc2_legal, base2_registers, base2_live_wf, by decide, by decide, ?_, by decide, by decide, _, rfl⟩
  constructor <;> decide
/-- The top value a = ADC_MAX among them, and a configuration with N = 2. -/
theorem witness_WaveIndexIsMonotoneAndClampedOnlyAtTheTop :
    configLegal tc2 = true ∧ (0 : Int) ≤ 3 ∧ (3 : Int) ≤ 4 ∧ (4 : Int) ≤ tc2.adcMax ∧
      configLegal { tc2 with numWaves := 2, waves := [row [0, 1, 2], row [3, 4, 5]] } = true :=
  ⟨tc2_legal, by decide, by decide, by decide, by decide⟩
theorem witness_MixAgainChangesNothing :
    configLegal base2.cfg = true ∧ base2.RegistersInRange ∧ base2.live.wf = true ∧ ∃ t, exec .mix base2 = .next t :=
  ⟨tc2_legal, base2_registers, base2_live_wf, _, rfl⟩
theorem witness_SegmentLengthsAreTheNearestIntegers : (127 : Nat) ≤ 127 ∧ configLegal tc2 = true :=
  ⟨by decide, tc2_legal⟩
/-- The first and last index of each segment of velocity 0: 0 and 98, 99 and 149, 150 and 199. -/
theorem witness_EnvelopeFollowsItsThreeSegments :
    configLegal tc2 = true ∧ (∀ i ∈ [0, 98], ((i : Nat) : Int) < attackTime tc2 0) ∧
      (∀ i ∈ [99, 149], attackTime tc2 0 ≤ ((i : Nat) : Int) ∧ ((i : Nat) : Int) < attackTime tc2 0 + sustainTime tc2 0) ∧
      (∀ i ∈ [150, 199], attackTime tc2 0 + sustainTime tc2 0 ≤ ((i : Nat) : Int) ∧ i < tc2.envLen) ∧
      (150 : Int) = attackTime tc2 0 + sustainTime tc2 0 ∧ 199 + 1 = tc2.envLen :=
  ⟨tc2_legal, by decide, by decide, by decide, by decide, by decide⟩
theorem witness_EnvelopeSamplesAreInRange : configLegal tc2 = true ∧ (127 : Nat) ≤ 127 ∧ 199 < tc2.envLen :=
  ⟨tc2_legal, by decide, by decide⟩
theorem witness_AttackFallsAndReleaseRisesWithVelocity :
    (0 : Nat) ≤ 127 ∧ tc2.atkV127 ≤ tc2.atkV0 ∧ tc2.relV0 ≤ tc2.relV127 ∧ (1 : Nat) ≤ 1 ∧ (126 : Nat) ≤ 126 := by decide
theorem witness_HoldIndexLiesInEverySustainRegionAtTheDefaults : (127 : Nat) ≤ 127 ∧ (1 : Nat) ≤ 1 ∧ (9 : Nat) ≤ 9 := by
  decide
theorem witness_NoteonWithVelocityPresses :
    configLegal base2.cfg = true ∧ base2.env.wf = true ∧ (127 : Nat) ≤ 127 ∧ (0 : Nat) < 1 ∧ (1 : Nat) ≤ 127 ∧
      199 < base2.cfg.envLen ∧ ¬ (Space.env = Space.env ∧ 200 < base2.cfg.envLen) :=
  ⟨tc2_legal, base2_env_wf, by decide, by decide, by decide, by decide, by decide⟩
theorem witness_NoteoffReleasesTheNamedNote :
    (127 : Nat) ≤ 127 ∧ { base2 with noteState := .sounding 127#7 }.noteState = .sounding 127#7 ∧ (127#7).toNat = 127 ∧
      (126#7).toNat ≠ 127 ∧ base2.noteState = .idle ∧ opField 0x20007F00#32 = 2 ∧
      (0x20007F00#32).extractLsb' 15 13 = 0#13 ∧ (0x20007F00#32).extractLsb' 0 8 = 0#8 ∧
      (0x20008000#32).extractLsb' 15 13 ≠ 0#13 ∧ (0x20000001#32).extractLsb' 0 8 ≠ 0#8 := by decide
theorem witness_RetriggerReplacesTheNoteWithoutARelease :
    { base2 with noteState := .sounding 60#7 }.noteState = .sounding 60#7 ∧ (64 : Nat) ≤ 127 ∧ (0 : Nat) < 127 ∧
      (60#7).toNat ≠ 64 := by decide
theorem witness_OverlappingNotesSequence :
    configLegal base2.cfg = true ∧ base2.env.wf = true ∧ base2.noteState = .idle ∧ 199 < base2.cfg.envLen :=
  ⟨tc2_legal, base2_env_wf, rfl, by decide⟩
/-- A command of each kind the clauses name: KNOBA changes KNOB_A, MIX DIAG_MIX, NOTEON the event stream and ENV. -/
theorem witness_EachCommandChangesOnlyItsOwnState :
    (nextOf (exec (.knoba 4) base2)).knobA ≠ base2.knobA ∧ (nextOf (exec (.knobb 4) base2)).knobB ≠ base2.knobB ∧
      (nextOf (exec .mix { base2 with knobB := 4#16 })).diagMix ≠ base2.diagMix ∧
      (nextOf (exec (.noteon 60 100) { baseShort with env := [] })).env ≠ [] ∧
      (nextOf (exec (.noteoff 60) base2)).events ≠ base2.events := by decide
theorem witness_LedFollowsTheEmittedEvents :
    (∃ t, exec (.noteon 60 100) base2 = .next t) ∧ (∃ t, exec (.noteoff 60) base2 = .next t) ∧
      ∃ t, exec .mix base2 = .next t := ⟨⟨_, rfl⟩, ⟨_, rfl⟩, ⟨_, rfl⟩⟩
theorem witness_StepKeepsTheInvariant :
    ({ base2 with inputs := [.command 0x10003C64#32] } : State).Inv ∧
      ∃ t, step { base2 with inputs := [.command 0x10003C64#32] } = .next t := by
  exact ⟨inv_withInputs base2_inv rfl _, _, rfl⟩
theorem witness_EveryResetEstablishesTheInvariant :
    configLegal tc2 = true ∧ base2.inputs = base1.inputs ∧ base2.freeCount = base1.freeCount := ⟨tc2_legal, rfl, rfl⟩
theorem witness_SentCommandsRunInOrder :
    base2.cfgErr = false ∧ base2.inputs = [] ∧ (∀ i ∈ [Instr.noteon 60 100, .knoba 4, .knobb 4, .mix], i.wf = true) ∧
      ∃ t, execAll [.noteon 60 100, .knoba 4, .knobb 4, .mix] base2 = .next t := ⟨rfl, rfl, by decide, _, rfl⟩
theorem witness_CycleMixesTheKnobsItSmoothed :
    configLegal base2.cfg = true ∧ base2.RegistersInRange ∧ base2.live.wf = true ∧ 2 < base2.cfg.sampleSize :=
  ⟨tc2_legal, base2_registers, base2_live_wf, by decide⟩
theorem witness_UnchangedCycleIsIdempotent :
    configLegal base2.cfg = true ∧ base2.RegistersInRange ∧ base2.live.wf = true ∧ ∃ t, exec .mix base2 = .next t :=
  ⟨tc2_legal, base2_registers, base2_live_wf, _, rfl⟩
theorem witness_ActionsMakeTheCommand : (0 : Nat) < 1 ∧ decode 0x60000000#32 = .error .reservedOpcode := ⟨by decide, rfl⟩
/-- A sample the command writes (LIVE[2]) and one out of range (LIVE[3]). -/
theorem witness_RacingReadReturnsOldOrNew :
    base2.live.wf = true ∧ base2.env.wf = true ∧ (∃ t, exec .mix base2 = .next t) ∧
      2 < spaceSize base2.cfg Buffer.live.space ∧ spaceSize base2.cfg Buffer.live.space ≤ 3 :=
  ⟨base2_live_wf, base2_env_wf, ⟨_, rfl⟩, by decide, by decide⟩
theorem witness_InstallMeansTheEnvelopeIsComplete :
    configLegal base2.cfg = true ∧ base2.env.wf = true ∧ (0 : Nat) < 127 ∧ 199 < base2.cfg.envLen ∧ (1 : Nat) ≤ 1 :=
  ⟨tc2_legal, base2_env_wf, by decide, by decide, by decide⟩
theorem witness_UnchangedMixIsInvisibleToTheRenderer :
    configLegal base2.cfg = true ∧ base2.RegistersInRange ∧ base2.live.wf = true ∧ exec .mix base2 = .next
        (nextOf (exec .mix base2)) ∧
      rendererRead (nextOf (exec .mix base2)) .live 0 ∈
        readsDuring (nextOf (exec .mix base2)) (commandActions (nextOf (exec .mix base2)) .mix) 0 .live 0 :=
  ⟨tc2_legal, base2_registers, base2_live_wf, rfl, by decide⟩
/-- Both resets, a halted block, a running block. -/
theorem witness_ReadsBeforeResetCompletesAreUnspecified :
    (HostInput.reset tc2).resetConfig ≠ none ∧ (HostInput.resetDuring 0#32 tc2).resetConfig ≠ none ∧
      halted.cfgErr = true ∧ base2.cfgErr = false := ⟨nofun, nofun, rfl, rfl⟩
theorem witness_ReadPortFollowsTheRegisterMap :
    { base2 with noteState := .sounding 127#7 }.noteState = .sounding 127#7 ∧ base2.noteState = .idle ∧
      6 ≤ (6#8).toNat ∧ 6 ≤ (255#8).toNat ∧ configLegal tc2 = true :=
  ⟨rfl, rfl, by decide, by decide, tc2_legal⟩
theorem witness_EventWordsCarryTheirFields :
    Event.word (.press 127#7) = Event.word (.press 127#7) := rfl
theorem witness_AssembledWordsDecodeToTheLine :
    (∀ i ∈ lineCommands (.cycle (some (.noteOn 127 127)) 65535 65535), i.wf = true) ∧
      (∃ i ∈ lineCommands (.noteoff0 128), i.wf = false) ∧ 2 ^ 32 ≤ 2 ^ 32 := by decide
/-- A line of white space only; a written operand of each form. -/
theorem witness_TextLinesReadAsTheirForm :
    (∀ c ∈ [' ', '\t', '\r'], isBlankChar c = true) ∧ (Numeral.decimal 1 [0, 0]).text = ['1', '0', '0'] ∧
      (Numeral.decimal 1 [0, 0]).value = 100 ∧ (Numeral.hex 3 [12]).text = ['0', 'x', '3', 'c'] ∧
      (Numeral.hex 3 [12]).value = 60 := by
  refine ⟨?_, rfl, rfl, rfl, rfl⟩
  simp [isBlankChar]

end Sys2Proof.Tests
end

section
/-! PROOFS. The actions of a command, applied in the order of its rule, are the command (R15, R67). -/

namespace Sys2Proof.Proofs

open Sys2Proof.Machine Sys2Proof.Laws

/-- The press sequence: its stores are ENVGEN, the other four actions follow them (R152). -/
theorem applyActions_pressActions (note vel : Nat) (s : State) :
    applyActions (pressActions note vel s) s = pressSequence note vel s := by
  rw [pressActions, applyActions_append, applyActions_rewrite]
  rfl

/-- The release sequence, which stores no sample (R155). -/
theorem applyActions_releaseActions (note : Nat) (s : State) :
    applyActions (releaseActions note s) s = releaseSequence note s := rfl

/-- MIX: its stores are the rewrite of LIVE, the diagnostic snapshot follows them (R111, R117). -/
theorem applyActions_mixActions (s : State) :
    applyActions (mixActions s) s = writeDiag (currentIndex s) (currentMix s)
      (memRewrite s .live (mixSample s.cfg (currentIndex s) (currentMix s)) s.cfg.sampleSize) := by
  rw [mixActions, applyActions_append, applyActions_rewrite]
  rfl

/-- NOTEON with a velocity above 0 has the actions of a press (R151). -/
theorem commandActions_noteon_pos {vel : Nat} (hv : 0 < vel) (s : State) (note : Nat) :
    commandActions s (.noteon note vel) = pressActions note vel s := if_pos hv

/-- NOTEON with velocity 0 has the actions of NOTEOFF (R153). -/
theorem commandActions_noteon_zero (s : State) (note : Nat) :
    commandActions s (.noteon note 0) = commandActions s (.noteoff note) := by
  rw [commandActions, if_neg (Nat.lt_irrefl 0), commandActions]

/-- An illegal word has one action, the write of CMD_ERR (R182). -/
theorem wordActions_illegal {w : Word} {e : Illegal} (h : decode w = .error e) (s : State) :
    wordActions s w = [.setCmdErr] := by
  rw [wordActions, h]

/-- Every command has a next state: the one its actions leave. -/
theorem exec_eq_applyActions (i : Instr) (s : State) :
    exec i s = .next (applyActions (commandActions s i) s) := by
  cases i with
  | noteon note vel =>
    rcases Nat.eq_zero_or_pos vel with rfl | hv
    · rw [commandActions_noteon_zero, commandActions, applyActions_releaseActions]
      rfl
    · rw [commandActions_noteon_pos hv, applyActions_pressActions]
      exact if_pos hv
  | noteoff note =>
    rw [commandActions, applyActions_releaseActions]
    rfl
  | knoba raw => rfl
  | knobb raw => rfl
  | mix =>
    rw [commandActions, applyActions_mixActions]
    rfl

/-- Every accepted word has a next state, illegal or not: the one its actions leave. -/
theorem runWord_eq_applyActions (w : Word) (s : State) :
    runWord w s = .next (applyActions (wordActions s w) s) := by
  unfold runWord wordActions
  cases decode w with
  | ok i => exact exec_eq_applyActions i s
  | error e => rfl

/-- Settles O46: the first two clauses command by command, through what the actions of each command leave; the
order of the actions from the definitions of the three action lists. -/
theorem actionsMakeTheCommand : Obligations.ActionsMakeTheCommand :=
  ⟨exec_eq_applyActions, runWord_eq_applyActions, fun _ => ⟨_, _, _, rfl⟩,
    fun s k _ hv => ⟨_, _, commandActions_noteon_pos hv s k⟩,
    fun s k => ⟨_, _, rfl, commandActions_noteon_zero s k⟩,
    fun _ _ => ⟨_, _, rfl, rfl⟩, fun s _ ⟨_, he⟩ => wordActions_illegal he s⟩

end Sys2Proof.Proofs
end

section
/-! PROOFS. What a command leaves unchanged, and which command each register and memory is written by (R30, R65). -/

namespace Sys2Proof.Proofs

open Sys2Proof.Machine Sys2Proof.Laws

section

variable {i : Instr} {s t : State}

/-- No command writes the configuration, HOLD_INDEX, an error bit, the queue or the counter. -/
theorem exec_frame (h : exec i s = .next t) :
    t.cfg = s.cfg ∧ t.holdIndex = s.holdIndex ∧ t.cmdErr = s.cmdErr ∧ t.cfgErr = s.cfgErr ∧
      t.inputs = s.inputs ∧ t.freeCount = s.freeCount := by
  rcases exec_cases h with ⟨_, _, rfl, _, rfl⟩ | ⟨_, rfl, rfl⟩ | ⟨_, rfl, rfl⟩ | ⟨_, rfl, rfl⟩ | ⟨_, rfl, rfl⟩ |
    ⟨rfl, rfl⟩ <;> exact ⟨rfl, rfl, rfl, rfl, rfl, rfl⟩

/-- KNOB_A is written by KNOBA only (R32, R101). -/
theorem eq_knoba_of_knobA_ne (h : exec i s = .next t) (hne : t.knobA ≠ s.knobA) : ∃ raw, i = .knoba raw := by
  rcases exec_cases h with ⟨_, _, rfl, _, rfl⟩ | ⟨_, rfl, rfl⟩ | ⟨_, rfl, rfl⟩ | ⟨raw, rfl, rfl⟩ | ⟨_, rfl, rfl⟩ |
    ⟨rfl, rfl⟩
  any_goals exact absurd rfl hne
  exact ⟨raw, rfl⟩

/-- KNOB_B is written by KNOBB only (R32, R102). -/
theorem eq_knobb_of_knobB_ne (h : exec i s = .next t) (hne : t.knobB ≠ s.knobB) : ∃ raw, i = .knobb raw := by
  rcases exec_cases h with ⟨_, _, rfl, _, rfl⟩ | ⟨_, rfl, rfl⟩ | ⟨_, rfl, rfl⟩ | ⟨_, rfl, rfl⟩ | ⟨raw, rfl, rfl⟩ |
    ⟨rfl, rfl⟩
  any_goals exact absurd rfl hne
  exact ⟨raw, rfl⟩

/-- A command other than MIX leaves LIVE and the diagnostic snapshot (R37, R119). -/
theorem mixer_state_eq_of_ne_mix (h : exec i s = .next t) (hi : i ≠ .mix) :
    t.live = s.live ∧ t.diagIndex = s.diagIndex ∧ t.diagMix = s.diagMix := by
  rcases exec_cases h with ⟨_, _, rfl, _, rfl⟩ | ⟨_, rfl, rfl⟩ | ⟨_, rfl, rfl⟩ | ⟨_, rfl, rfl⟩ | ⟨_, rfl, rfl⟩ |
    ⟨hmix, _⟩
  any_goals exact ⟨rfl, rfl, rfl⟩
  exact absurd hmix hi

/-- ENV is written by NOTEON with a velocity above 0 only (R142, R151). -/
theorem eq_noteon_of_env_ne (h : exec i s = .next t) (hne : t.env ≠ s.env) :
    ∃ k v, i = .noteon k v ∧ 0 < v := by
  rcases exec_cases h with ⟨k, v, rfl, hv, rfl⟩ | ⟨_, rfl, rfl⟩ | ⟨_, rfl, rfl⟩ | ⟨_, rfl, rfl⟩ | ⟨_, rfl, rfl⟩ |
    ⟨rfl, rfl⟩
  · exact ⟨k, v, rfl, hv⟩
  all_goals exact absurd rfl hne

/-- A command is a note command, or it leaves NOTE_STATE, LED and the stream (R33, R34, R42). -/
theorem eq_note_command_or_note_state_eq (h : exec i s = .next t) :
    (∃ k, i = .noteoff k ∨ ∃ v, i = .noteon k v) ∨
      t.noteState = s.noteState ∧ t.led = s.led ∧ t.events = s.events := by
  rcases exec_cases h with ⟨k, v, rfl, _, rfl⟩ | ⟨k, rfl, rfl⟩ | ⟨k, rfl, rfl⟩ | ⟨_, rfl, rfl⟩ | ⟨_, rfl, rfl⟩ |
    ⟨rfl, rfl⟩
  · exact .inl ⟨k, .inr ⟨v, rfl⟩⟩
  · exact .inl ⟨k, .inr ⟨0, rfl⟩⟩
  · exact .inl ⟨k, .inl rfl⟩
  all_goals exact .inr ⟨rfl, rfl, rfl⟩

/-- A read of a sample depends on the configuration and the two buffers only (R61). -/
theorem memRead_congr (hcfg : t.cfg = s.cfg) (hlive : t.live = s.live) (henv : t.env = s.env) (sp : Space)
    (a : Nat) : memRead t sp a = memRead s sp a := by
  cases sp <;> simp [memRead, hcfg, hlive, henv]

/-- A command that is neither MIX nor NOTEON with a velocity above 0 stores no sample (R65). -/
theorem memRead_eq_of_no_store (h : exec i s = .next t) (hmix : i ≠ .mix)
    (hpress : ¬ ∃ k v, i = .noteon k v ∧ 0 < v) (sp : Space) (a : Nat) : memRead t sp a = memRead s sp a :=
  memRead_congr (exec_frame h).1 (mixer_state_eq_of_ne_mix h hmix).1
    (not_imp_comm.1 (eq_noteon_of_env_ne h) hpress) sp a

/-- The events a command appends, and the LED that goes with them (R34, R152, R155). -/
theorem exec_events_led (h : exec i s = .next t) :
    (t.events = s.events ∧ t.led = s.led) ∨
    (∃ n, t.events = s.events ++ [.releaseThenPress n] ∧ t.led = false) ∨
    (∃ n, t.events = s.events ++ [.envInstall s.holdIndex, .press n] ∧ t.led = true) := by
  rcases exec_cases h with ⟨k, _, _, _, rfl⟩ | ⟨k, _, rfl⟩ | ⟨k, _, rfl⟩ | ⟨_, _, rfl⟩ | ⟨_, _, rfl⟩ | ⟨_, rfl⟩
  · exact .inr (.inr ⟨noteOperand k, by simp, rfl⟩)
  · exact .inr (.inl ⟨noteOperand k, rfl, rfl⟩)
  · exact .inr (.inl ⟨noteOperand k, rfl, rfl⟩)
  all_goals exact .inl ⟨rfl, rfl⟩

end

/-- Settles O38: the frame of every command, then register by register the one command that writes it. -/
theorem eachCommandChangesOnlyItsOwnState : Obligations.EachCommandChangesOnlyItsOwnState := by
  intro i s t h
  obtain ⟨hcfg, hhold, hcmd, hcfgErr, hin, hfree⟩ := exec_frame h
  refine ⟨hcfg, hhold, hcmd, hcfgErr, hin, hfree, eq_knoba_of_knobA_ne h, eq_knobb_of_knobB_ne h, ?_,
    eq_noteon_of_env_ne h, ?_, ?_⟩
  · intro hne
    by_contra hi
    obtain ⟨hlive, hindex, hmix⟩ := mixer_state_eq_of_ne_mix h hi
    simp [hlive, hindex, hmix] at hne
  · intro hne
    rcases eq_note_command_or_note_state_eq h with hi | ⟨hnote, hled, hevents⟩
    · exact hi
    · simp [hnote, hled, hevents] at hne
  · rintro (⟨raw, rfl | rfl⟩ | ⟨k, rfl | rfl⟩) <;> exact memRead_eq_of_no_store h (by simp) (by simp)

/-- Reset leaves LED 0, whether the block starts or halts (R181, R201). -/
@[simp] theorem resetBlock_led (cfg : Config) (s : State) : (resetBlock cfg s).led = false := by
  cases hc : configLegal cfg with
  | true => rw [resetBlock_legal hc, afterReset_led]
  | false => rw [resetBlock_illegal hc, afterHalt_led]

/-- Settles O39: the stream and LED by command, and LED by outcome of the reset procedure. -/
theorem ledFollowsTheEmittedEvents : Obligations.LedFollowsTheEmittedEvents :=
  ⟨fun _ _ _ h => exec_events_led h, resetBlock_led⟩

end Sys2Proof.Proofs
end

section
/-! PROOFS. The error bits, HOLD_INDEX and the configuration over one step: what reset writes, and what every other
step leaves (R35, R36, R188). -/

namespace Sys2Proof.Proofs

open Sys2Proof.Machine Sys2Proof.Laws

section

variable {s t : State}

/-- A step that serves a reset, one that cuts a command short included, ends in the reset procedure (R200, R206). -/
theorem step_of_nextReset {cfg : Config} (h : step s = .next t) (hr : nextReset s = some cfg) :
    ∃ u, t = resetBlock cfg u := by
  obtain ⟨rest, hin | ⟨w, hin⟩⟩ := nextReset_eq_some.1 hr
  · refine ⟨takeInput s, ?_⟩
    simpa [step, serveInput, hin] using h.symm
  · refine ⟨if (takeInput s).cfgErr then takeInput s else abandonWord w (takeInput s), ?_⟩
    simpa [step, serveInput, hin, resetDuringWord] using h.symm

/-- A step that serves no reset runs a command, discards an illegal word, or holds the state. -/
theorem step_cases_of_no_reset (h : step s = .next t) (hr : nextReset s = none) :
    (∃ w rest i, s.inputs = .command w :: rest ∧ decode w = .ok i ∧ exec i (takeInput s) = .next t) ∨
    (∃ w rest e, s.inputs = .command w :: rest ∧ decode w = .error e ∧ t = raiseIllegalCommand (takeInput s)) ∨
    (s.inputs = [] ∧ t = s) := by
  have hnot : ∀ cfg, ¬ ∃ rest, s.inputs = .reset cfg :: rest ∨ ∃ w, s.inputs = .resetDuring w cfg :: rest :=
    fun cfg hin => by simp [nextReset_eq_some.2 hin] at hr
  rcases step_cases h with ⟨cfg, rest, hin, -⟩ | ⟨w, cfg, rest, hin, -⟩ | ⟨w, rest, i, hin, -, hd, hx⟩ |
    ⟨w, rest, e, hin, -, hd, rfl⟩ | ⟨hin, -, rfl⟩
  · exact absurd ⟨rest, .inl hin⟩ (hnot cfg)
  · exact absurd ⟨rest, .inr ⟨w, hin⟩⟩ (hnot cfg)
  · exact .inl ⟨w, rest, i, hin, hd, hx⟩
  · exact .inr (.inl ⟨w, rest, e, hin, hd, rfl⟩)
  · exact .inr (.inr ⟨hin, rfl⟩)

/-- Only reset writes the configuration, HOLD_INDEX and CFG_ERR (R8, R35, R36). -/
theorem step_frame_of_no_reset (h : step s = .next t) (hr : nextReset s = none) :
    t.cfg = s.cfg ∧ t.holdIndex = s.holdIndex ∧ t.cfgErr = s.cfgErr := by
  rcases step_cases_of_no_reset h hr with ⟨_, _, _, _, _, hx⟩ | ⟨_, _, _, _, _, rfl⟩ | ⟨_, rfl⟩
  · obtain ⟨hcfg, hhold, -, hcfgErr, -, -⟩ := exec_frame hx
    exact ⟨hcfg, hhold, hcfgErr⟩
  · exact ⟨rfl, rfl, rfl⟩
  · exact ⟨rfl, rfl, rfl⟩

/-- Between resets CMD_ERR is sticky, and set by an illegal word only (R36, R182). -/
theorem step_cmdErr_of_no_reset (h : step s = .next t) (hr : nextReset s = none) :
    t.cmdErr = true ↔ s.cmdErr = true ∨ ∃ w rest e, s.inputs = .command w :: rest ∧ decode w = .error e := by
  rcases step_cases_of_no_reset h hr with ⟨w, rest, i, hin, hd, hx⟩ | ⟨w, rest, e, hin, hd, rfl⟩ | ⟨hin, rfl⟩
  · obtain ⟨-, -, hkept, -⟩ := exec_frame hx
    simp [hkept, hin, hd]
  · simp [hin, hd]
  · simp [hin]

end

/-- CFG_ERR after a reset: 1 exactly when a check failed (R36, R181). -/
theorem resetBlock_cfgErr (cfg : Config) (s : State) :
    (resetBlock cfg s).cfgErr = true ↔ configLegal cfg = false := by
  cases hc : configLegal cfg with
  | true => simp [resetBlock_legal hc]
  | false => simp [resetBlock_illegal hc]

/-- Settles O9: the two error bits over a step by what the step serves, and over the reset procedure by its outcome. -/
theorem errorBitsChangeOnlyAsTheirRuleSays : Obligations.ErrorBitsChangeOnlyAsTheirRuleSays := by
  intro s t h
  refine ⟨fun hr => ?_, fun cfg hr => ?_⟩
  · obtain ⟨-, -, hcfgErr⟩ := step_frame_of_no_reset h hr
    exact ⟨hcfgErr, step_cmdErr_of_no_reset h hr⟩
  · obtain ⟨u, rfl⟩ := step_of_nextReset h hr
    exact ⟨resetBlock_cfgErr cfg u, fun hc => by rw [resetBlock_legal hc, afterReset_cmdErr]⟩

/-- The hold index of a legal configuration survives the narrowing of its register write (R136, R203). -/
theorem regValue_resetHoldIndex {cfg : Config} (h : configLegal cfg = true) :
    regValue (resetHoldIndex cfg) = attackTime cfg cfg.holdRefVelocity := by
  obtain ⟨h0, h1, -⟩ := segments_legal h (legal_hold h).1
  exact regValue_narrow16 h0 (by omega)

/-- The default attack length of velocity 0: the map's velocity-0 end, whatever the table (R8, R131). -/
theorem attackTime_defaults_zero (n k : Nat) (waves : List (List Sample)) :
    attackTime (defaults n k waves) 0 = 99 :=
  (by decide : attackTime (defaults 0 0 []) 0 = 99)

/-- Settles O10: no step but a reset writes HOLD_INDEX, and what a legal reset writes is in range (checks 6 and 10). -/
theorem holdIndexIsConstantUntilReset : Obligations.HoldIndexIsConstantUntilReset := by
  refine ⟨fun s t h hr => ?_, fun cfg s hc => ?_, attackTime_defaults_zero⟩
  · obtain ⟨hcfg, hhold, -⟩ := step_frame_of_no_reset h hr
    exact ⟨hhold, hcfg⟩
  · rw [resetBlock_legal hc, afterReset_holdIndex]
    have hvalue : ((resetHoldIndex cfg).toNat : Int) = attackTime cfg cfg.holdRefVelocity :=
      regValue_resetHoldIndex hc
    have hlt := (legal_hold hc).2
    exact ⟨hvalue, by omega⟩

end Sys2Proof.Proofs
end

section
/-! PROOFS. The register read port, field by field of STATUS and number by number (R39). -/

namespace Sys2Proof.Proofs

open Sys2Proof.Machine Sys2Proof.Laws

section

variable (s : State)

@[simp] theorem readPort_zero : readPort s 0#8 = statusWord s := rfl

theorem isSounding_iff (n : NoteState) : isSounding n = true ↔ ∃ k, n = .sounding k := by
  cases n <;> simp [isSounding]

/-- STATUS bit by bit: the four flags, four reserved bits, the seven bits of NOTE, a reserved bit. -/
theorem statusWord_getLsbD {i : Nat} (hi : i < 16) : (statusWord s).getLsbD i =
    if i = 0 then isSounding s.noteState
    else if i = 1 then s.led
    else if i = 2 then s.cmdErr
    else if i = 3 then s.cfgErr
    else decide (8 ≤ i) && (noteNumber s.noteState).getLsbD (i - 8) := by
  simp only [statusWord, bit, BitVec.getLsbD_append]
  interval_cases i <;> simp

theorem statusWord_note : (statusWord s).extractLsb' 8 7 = noteNumber s.noteState := by
  ext i hi
  rw [BitVec.getElem_extractLsb', statusWord_getLsbD s (by omega)]
  interval_cases i <;> rfl

theorem statusWord_reserved_low : (statusWord s).extractLsb' 4 4 = 0#4 := by
  ext i hi
  rw [BitVec.getElem_extractLsb', statusWord_getLsbD s (by omega)]
  interval_cases i <;> simp

theorem statusWord_reserved_top : (statusWord s).getLsbD 15 = false := by
  rw [statusWord_getLsbD s (by omega)]
  exact BitVec.getLsbD_of_ge _ 7 (by omega)

/-- Every number the register map does not name reads 0. -/
theorem readPort_reserved {number : BitVec 8} (h : 6 ≤ number.toNat) : readPort s number = 0#16 := by
  unfold readPort
  split
  any_goals omega
  rfl

/-- STATUS after a legal reset is 0x0000 (R201). -/
theorem statusWord_afterReset (cfg : Config) (inputs : List HostInput) (k : Nat) :
    statusWord (State.afterReset cfg inputs k) = 0x0000#16 := by
  simp [statusWord, bit, isSounding, noteNumber]

end

/-- Settles O51: each field of STATUS by its own lemma, the other numbers by the register map. -/
theorem readPortFollowsTheRegisterMap : Obligations.ReadPortFollowsTheRegisterMap := by
  intro s
  simp only [readPort_zero]
  refine ⟨?_, statusWord_getLsbD s (i := 1) (by omega), statusWord_getLsbD s (i := 2) (by omega),
    statusWord_getLsbD s (i := 3) (by omega), statusWord_reserved_low s, statusWord_reserved_top s,
    fun n hn => ?_, fun hn => ?_, rfl, rfl, rfl, rfl, rfl, fun _ => readPort_reserved s, fun cfg hc => ?_⟩
  · rw [statusWord_getLsbD s (by omega), if_pos rfl, isSounding_iff]
  · rw [statusWord_note, hn, noteNumber]
  · rw [statusWord_note, hn, noteNumber]
  · rw [resetBlock_legal hc, statusWord_afterReset]

end Sys2Proof.Proofs
end

section
/-! PROOFS. Decoding: a row the word selects is the row it decodes by, a decoded command is well formed, and the
decoder inverts the encoder (R82 to R84, R92). -/

namespace Sys2Proof.Proofs

open Sys2Proof.Machine Sys2Proof.Laws

/-- Every mask of the map covers OP, and no pattern has a bit outside it (R81, R82). -/
theorem opcodeMap_opField : ∀ r ∈ opcodeMap,
    r.mask &&& 0xF0000000#32 = 0xF0000000#32 ∧ r.pattern &&& 0xF0000000#32 = r.pattern := by
  decide

theorem eq_of_pattern_eq : ∀ r ∈ opcodeMap, ∀ r' ∈ opcodeMap, r'.pattern = r.pattern → r' = r := by
  decide

/-- The pattern of a row the word selects is the word's OP in its place. -/
theorem pattern_of_selects {r : OpRow} {w : Word} (hr : r ∈ opcodeMap) (h : r.selects w = true) :
    r.pattern = w &&& 0xF0000000#32 := by
  obtain ⟨hmask, hpattern⟩ := opcodeMap_opField r hr
  calc r.pattern = r.pattern &&& 0xF0000000#32 := hpattern.symm
    _ = w &&& r.mask &&& 0xF0000000#32 := by rw [eq_of_beq h]
    _ = w &&& 0xF0000000#32 := by rw [BitVec.and_assoc, hmask]

/-- The decoder answers the command of the row the word selects (R82, R84). -/
theorem decode_of_selects {r : OpRow} {w : Word} (hr : r ∈ opcodeMap) (h : r.selects w = true) :
    decode w = .ok (assembleOperands r.op w) := by
  have hfind : opcodeMap.find? (fun r => r.selects w) = some r := by
    obtain ⟨r', hr'⟩ := Option.isSome_iff_exists.1 (List.find?_isSome (p := fun r : OpRow => r.selects w).2 ⟨r, hr, h⟩)
    have hmem := List.mem_of_find?_eq_some hr'
    have hsel : r'.selects w = true := List.find?_some (p := fun r : OpRow => r.selects w) hr'
    rw [hr', eq_of_pattern_eq r hr r' hmem
      ((pattern_of_selects hmem hsel).trans (pattern_of_selects hr h).symm)]
  rw [decode, hfind]

/-- A word that decodes selects a row, and the command is that row's (R84). -/
theorem decode_ok {w : Word} {i : Instr} (h : decode w = .ok i) :
    ∃ r ∈ opcodeMap, r.selects w = true ∧ i = assembleOperands r.op w := by
  unfold decode at h
  split at h
  · next r hr =>
    cases h
    exact ⟨r, List.mem_of_find?_eq_some hr, List.find?_some (p := fun r : OpRow => r.selects w) hr, rfl⟩
  · cases h

/-- Operands read from their fields are in range (R83). -/
theorem assembleOperands_wf (op : Op) (w : Word) : (assembleOperands op w).wf = true := by
  have hnote : noteField w < 128 := (w.extractLsb' 8 7).isLt
  have hvel : velField w < 128 := (w.extractLsb' 0 7).isLt
  have hraw : rawField w < 65536 := (w.extractLsb' 0 16).isLt
  cases op with
  | noteon => exact (wf_noteon _ _).2 ⟨by omega, by omega⟩
  | noteoff => exact (wf_noteoff _).2 (by omega)
  | knoba => exact (wf_knoba _).2 (by omega)
  | knobb => exact (wf_knobb _).2 (by omega)
  | mix => rfl

/-- The decoder answers well-formed commands only (R83, R84). -/
theorem decode_wf {w : Word} {i : Instr} (h : decode w = .ok i) : i.wf = true := by
  obtain ⟨r, -, -, rfl⟩ := decode_ok h
  exact assembleOperands_wf r.op w

/-- A well-formed command's row selects its word (R82). -/
theorem rowOf_selects_encode (i : Instr) : RowPattern.Statement i := by
  cases i with
  | noteon note vel => exact RowPattern.noteon note vel
  | noteoff note => exact RowPattern.noteoff note
  | knoba raw => exact RowPattern.knoba raw
  | knobb raw => exact RowPattern.knobb raw
  | mix => exact RowPattern.mix

theorem noteField_noteon (x y : BitVec 7) :
    (0x10000000#32 ||| (x.setWidth 32 <<< 8) ||| y.setWidth 32).extractLsb' 8 7 = x := by
  ext i hi
  interval_cases i <;> simp

theorem velField_noteon (x y : BitVec 7) :
    (0x10000000#32 ||| (x.setWidth 32 <<< 8) ||| y.setWidth 32).extractLsb' 0 7 = y := by
  ext i hi
  interval_cases i <;> simp

theorem noteField_noteoff (x : BitVec 7) :
    (0x20000000#32 ||| (x.setWidth 32 <<< 8)).extractLsb' 8 7 = x := by
  ext i hi
  interval_cases i <;> simp

/-- An operand in the low 16 bits, whatever stands above them. -/
theorem rawField_or {c : Word} (hc : c.extractLsb' 0 16 = 0#16) (x : BitVec 16) :
    (c ||| x.setWidth 32).extractLsb' 0 16 = x := by
  rw [BitVec.extractLsb'_or, hc, BitVec.zero_or]
  ext i hi
  simp only [BitVec.getElem_extractLsb', BitVec.getLsbD_setWidth, Nat.zero_add,
    decide_eq_true (by omega : i < 32), Bool.true_and, BitVec.getLsbD_eq_getElem hi]

/-- A number of at most k bits is the value of a word of k bits. -/
theorem exists_toNat_eq {k n : Nat} (h : n < 2 ^ k) : ∃ x : BitVec k, x.toNat = n := ⟨.ofNatLT n h, rfl⟩

/-- The word of a well-formed command carries the command's operands in their fields (R81, R83). -/
theorem assembleOperands_encode {i : Instr} (h : i.wf = true) :
    assembleOperands (rowOf i).op (encode i) = i := by
  cases i with
  | noteon note vel =>
    obtain ⟨hnote, hvel⟩ := (wf_noteon note vel).1 h
    obtain ⟨x, rfl⟩ := exists_toNat_eq (k := 7) (by omega : note < 2 ^ 7)
    obtain ⟨y, rfl⟩ := exists_toNat_eq (k := 7) (by omega : vel < 2 ^ 7)
    simp only [rowOf, assembleOperands, encode, noteField, velField, BitVec.ofNat_toNat, noteField_noteon,
      velField_noteon]
  | noteoff note =>
    have hnote := (wf_noteoff note).1 h
    obtain ⟨x, rfl⟩ := exists_toNat_eq (k := 7) (by omega : note < 2 ^ 7)
    simp only [rowOf, assembleOperands, encode, noteField, BitVec.ofNat_toNat, noteField_noteoff]
  | knoba raw =>
    have hraw := (wf_knoba raw).1 h
    obtain ⟨x, rfl⟩ := exists_toNat_eq (k := 16) (by omega : raw < 2 ^ 16)
    simp only [rowOf, assembleOperands, encode, rawField, BitVec.ofNat_toNat,
      rawField_or (rfl : BitVec.extractLsb' 0 16 0x30000000#32 = 0#16)]
  | knobb raw =>
    have hraw := (wf_knobb raw).1 h
    obtain ⟨x, rfl⟩ := exists_toNat_eq (k := 16) (by omega : raw < 2 ^ 16)
    simp only [rowOf, assembleOperands, encode, rawField, BitVec.ofNat_toNat,
      rawField_or (rfl : BitVec.extractLsb' 0 16 0x40000000#32 = 0#16)]
  | mix => rfl

/-- The decoder inverts the encoder on well-formed commands (R84, R92). -/
theorem decode_encode {i : Instr} (h : i.wf = true) : decode (encode i) = .ok i := by
  obtain ⟨hmem, hsel⟩ := rowOf_selects_encode i h
  rw [decode_of_selects hmem hsel, assembleOperands_encode h]

end Sys2Proof.Proofs
end

section
/-! PROOFS. The invariant of the block: reset establishes it, every well-formed command keeps it (R63, R204). -/

namespace Sys2Proof.Proofs

open Sys2Proof.Machine Sys2Proof.Laws

/-- Smoothing stays between the register and the raw sample (R103, R104). -/
theorem smooth_between {cfg : Config} (h : configLegal cfg = true) (s r : Int) :
    min s r ≤ smooth cfg s r ∧ smooth cfg s r ≤ max s r := by
  obtain ⟨hnum, hlt, -⟩ := legal_alpha h
  have hdistance : min 0 (r - s) ≤ truncDiv ((r - s) * (cfg.alphaNum : Int)) (cfg.alphaDen : Int) ∧
      truncDiv ((r - s) * (cfg.alphaNum : Int)) (cfg.alphaDen : Int) ≤ max 0 (r - s) := by
    rcases le_total s r with hsr | hrs
    · rw [min_eq_left (by omega), max_eq_right (by omega)]
      exact truncDiv_between (by omega) (by nlinarith) (by nlinarith)
    · rw [min_eq_right (by omega), max_eq_left (by omega)]
      exact truncDiv_between (by omega) (by nlinarith) (by nlinarith)
  unfold smooth
  omega

/-- A smoothed knob stays in the raw range (R32, R104). -/
theorem smoothedKnob_le_adcMax {cfg : Config} (h : configLegal cfg = true) {knob : Reg16}
    (hknob : knob.toNat ≤ cfg.adcMax) (raw : Nat) : (smoothedKnob cfg knob raw).toNat ≤ cfg.adcMax := by
  have hmax := (legal_adcMax h).2
  obtain ⟨hlo, hhi⟩ := smooth_between h (regValue knob) (conditionRaw cfg raw)
  have hvalue : regValue (smoothedKnob cfg knob raw) = smooth cfg (regValue knob) (conditionRaw cfg raw) := by
    apply regValue_narrow16 <;> unfold conditionRaw regValue at * <;> omega
  unfold conditionRaw regValue at *
  omega

/-- The two events of a press stand as the invariant wants them (R152). -/
theorem pressesInstalled_press (hold : Reg16) (n : Note) : pressesInstalled hold [.envInstall hold, .press n] :=
  ⟨rfl, trivial⟩

/-- The event of a release is no PRESS (R155). -/
theorem pressesInstalled_release (hold : Reg16) (n : Note) : pressesInstalled hold [.releaseThenPress n] :=
  trivial

/-- Two streams whose presses are installed, one behind the other (R152). -/
theorem pressesInstalled_append {hold : Reg16} {new : List Event} (hnew : pressesInstalled hold new)
    (es : List Event) (h : pressesInstalled hold es) : pressesInstalled hold (es ++ new) := by
  induction es using pressesInstalled.induct with
  | case1 => exact hnew
  | case2 n rest => exact h.elim
  | case3 k n rest ih => exact ⟨h.1, ih h.2⟩
  | case4 k rest hrest => simp [pressesInstalled] at h
  | case5 n rest ih => exact ih h

section

variable {s : State}

/-- The invariant of a running block says nothing of the queue and of CMD_ERR. -/
theorem runningInv_of_inputs_cmdErr (h : s.RunningInv) (inputs : List HostInput) (cmdErr : Bool) :
    State.RunningInv { s with inputs := inputs, cmdErr := cmdErr } :=
  { h with registers := { h.registers with }, buffers := { h.buffers with } }

/-- A press of a velocity in range keeps the invariant (R143, R152). -/
theorem pressSequence_runningInv (h : s.RunningInv) (note : Nat) {vel : Nat} (hvel : vel ≤ velMax) :
    (pressSequence note vel s).RunningInv where
  legal := h.legal
  registers := { h.registers with }
  buffers :=
    { h.buffers with
      envWf := writeSeq_wf h.buffers.envWf _ _
      envWithin := writeSeq_within h.buffers.envWithin _ le_rfl }
  hold := h.hold
  envelope := ⟨vel, hvel, fun i hi => (read_writeSeq h.buffers.envWf _ _ i).trans (if_pos hi)⟩
  live := h.live
  led := fun _ => rfl
  stream := by
    rw [pressSequence_events, List.append_assoc]
    exact pressesInstalled_append (pressesInstalled_press _ _) _ h.stream

/-- A release keeps the invariant (R155). -/
theorem releaseSequence_runningInv (h : s.RunningInv) (note : Nat) : (releaseSequence note s).RunningInv :=
  { h with
    registers := { h.registers with }
    buffers := { h.buffers with }
    led := fun hled => nomatch hled
    stream := pressesInstalled_append (pressesInstalled_release _ _) _ h.stream }

/-- Knobs written in the raw range keep the invariant (R32). -/
theorem knobs_runningInv (h : s.RunningInv) {a b : Reg16} (ha : a.toNat ≤ s.cfg.adcMax)
    (hb : b.toNat ≤ s.cfg.adcMax) : State.RunningInv { s with knobA := a, knobB := b } :=
  { h with
    registers := { h.registers with knobA := ha, knobB := hb }
    buffers := { h.buffers with } }

/-- DIAG_INDEX after a MIX is the wave index, without loss (R112, R117). -/
theorem regValue_narrow16_currentIndex (hc : configLegal s.cfg = true) (hr : s.RegistersInRange) :
    regValue (narrow16 (currentIndex s)) = currentIndex s ∧ currentIndex s + 2 ≤ s.cfg.numWaves := by
  obtain ⟨h0, h1⟩ := mixIndex_range hc (regValue_nonneg s.knobA) (Int.ofNat_le.2 hr.knobA)
  have hwaves := (legal_numWaves hc).2
  unfold currentIndex
  exact ⟨regValue_narrow16 h0 (by omega), by omega⟩

/-- The mix numerator is KNOB_B itself (R113). -/
theorem currentMix_eq (hr : s.RegistersInRange) : currentMix s = regValue s.knobB :=
  mixNumerator_of_mem (regValue_nonneg s.knobB) (Int.ofNat_le.2 hr.knobB)

/-- MIX keeps the invariant: LIVE is rewritten with the values the diagnostic snapshot then shows (R111, R117). -/
theorem mix_runningInv (h : s.RunningInv) :
    (writeDiag (currentIndex s) (currentMix s)
      (memRewrite s .live (mixSample s.cfg (currentIndex s) (currentMix s)) s.cfg.sampleSize)).RunningInv := by
  obtain ⟨hindex, hrange⟩ := regValue_narrow16_currentIndex h.legal h.registers
  have hmix := currentMix_eq h.registers
  have hknob := h.registers.knobB
  exact
    { h with
      registers :=
        { h.registers with
          diagIndex := by
            rw [writeDiag_diagIndex]
            unfold regValue at hindex
            show _ ≤ s.cfg.numWaves
            omega
          diagMix := by
            rw [writeDiag_diagMix, hmix, narrow16_regValue]
            exact hknob }
      buffers :=
        { h.buffers with
          liveWf := writeSeq_wf h.buffers.liveWf _ _
          liveWithin := writeSeq_within h.buffers.liveWithin _ le_rfl }
      live := fun i (hi : i < s.cfg.sampleSize) => by
        rw [writeDiag_live, memRewriteLive_live, read_writeSeq h.buffers.liveWf, if_pos hi, writeDiag_diagIndex,
          writeDiag_diagMix, hindex, hmix, narrow16_regValue]
        rfl }

/-- Every well-formed command keeps the invariant of a running block. -/
theorem exec_runningInv {i : Instr} {t : State} (h : s.RunningInv) (hi : i.wf = true) (hx : exec i s = .next t) :
    t.RunningInv := by
  rcases exec_cases hx with ⟨note, vel, rfl, -, rfl⟩ | ⟨note, rfl, rfl⟩ | ⟨note, rfl, rfl⟩ | ⟨raw, rfl, rfl⟩ |
    ⟨raw, rfl, rfl⟩ | ⟨rfl, rfl⟩
  · exact pressSequence_runningInv h note ((wf_noteon note vel).1 hi).2
  · exact releaseSequence_runningInv h note
  · exact releaseSequence_runningInv h note
  · exact knobs_runningInv h (smoothedKnob_le_adcMax h.legal h.registers.knobA raw) h.registers.knobB
  · exact knobs_runningInv h h.registers.knobA (smoothedKnob_le_adcMax h.legal h.registers.knobB raw)
  · exact mix_runningInv h

/-- A running block meets the invariant when it meets the part for a running block. -/
theorem inv_of_runningInv (hrun : s.cfgErr = false) (h : s.RunningInv) : s.Inv :=
  ⟨fun _ => h, fun hhalt => by simp [hrun] at hhalt⟩

/-- A halted block meets the invariant when it meets the part for a halted block. -/
theorem inv_of_haltedInv (hhalt : s.cfgErr = true) (h : s.HaltedInv) : s.Inv :=
  ⟨fun hrun => by simp [hhalt] at hrun, fun _ => h⟩

end

/-- At index 0 and numerator 0, as the snapshot is at reset, MIX gives row 0 of the table (R121, R202). -/
theorem mixSample_zero {cfg : Config} (h : configLegal cfg = true) (i : Nat) :
    mixSample cfg 0 0 i = waveRead cfg i := by
  simp [mixSample, interpolate_zero h, narrow16_toInt]

/-- A legal reset establishes the invariant of a running block (R200 to R204). -/
theorem afterReset_runningInv {cfg : Config} (h : configLegal cfg = true) (inputs : List HostInput) (k : Nat) :
    (State.afterReset cfg inputs k).RunningInv where
  legal := h
  registers :=
    { knobA := Nat.zero_le _
      knobB := Nat.zero_le _
      diagIndex := (legal_numWaves h).1
      diagMix := Nat.zero_le _
      holdIndex := by
        have hvalue := regValue_resetHoldIndex h
        have hlt := (legal_hold h).2
        unfold regValue at hvalue
        show (resetHoldIndex cfg).toNat < cfg.envLen
        omega }
  buffers :=
    { liveWf := writeSeq_wf rfl _ _
      liveWithin := writeSeq_within rfl _ le_rfl
      envWf := writeSeq_wf rfl _ _
      envWithin := writeSeq_within rfl _ le_rfl }
  hold := rfl
  envelope := ⟨cfg.holdRefVelocity, (legal_hold h).1, fun i hi => (read_writeSeq rfl _ _ i).trans (if_pos hi)⟩
  live := fun i hi => ((read_writeSeq rfl _ _ i).trans (if_pos hi)).trans (mixSample_zero h i).symm
  led := fun hled => nomatch hled
  stream := trivial

/-- A failed reset establishes the invariant of a halted block (R181). -/
theorem afterHalt_haltedInv {cfg : Config} (h : configLegal cfg = false) (events : List Event)
    (inputs : List HostInput) (k : Nat) : (State.afterHalt cfg events inputs k).HaltedInv where
  illegal := h
  led := rfl
  buffers :=
    { liveWf := writeSeq_wf rfl _ _
      liveWithin := writeSeq_within rfl _ le_rfl
      envWf := writeSeq_wf rfl _ _
      envWithin := writeSeq_within rfl _ le_rfl }

/-- Reset establishes the invariant from any state (R200, R206). -/
theorem resetBlock_inv (cfg : Config) (s : State) : (resetBlock cfg s).Inv := by
  cases hc : configLegal cfg with
  | true =>
    rw [resetBlock_legal hc]
    exact inv_of_runningInv rfl (afterReset_runningInv hc _ _)
  | false =>
    rw [resetBlock_illegal hc]
    exact inv_of_haltedInv rfl (afterHalt_haltedInv hc _ _ _)

/-- Settles O40: both resets end in the reset procedure, which establishes the invariant; a decoded command is well
formed and keeps it; an illegal word and an idle step touch nothing the invariant speaks of. -/
theorem stepKeepsTheInvariant : Obligations.StepKeepsTheInvariant := by
  intro s t h hstep
  rcases step_cases hstep with ⟨cfg, rest, -, rfl⟩ | ⟨w, cfg, rest, -, rfl⟩ | ⟨w, rest, i, -, hrun, hd, hx⟩ |
    ⟨w, rest, e, -, hrun, -, rfl⟩ | ⟨-, -, rfl⟩
  · exact resetBlock_inv cfg _
  · exact resetBlock_inv cfg _
  · obtain ⟨-, -, -, hcfgErr, -⟩ := exec_frame hx
    exact inv_of_runningInv (hcfgErr.trans hrun)
      (exec_runningInv (runningInv_of_inputs_cmdErr (h.1 hrun) _ _) (decode_wf hd) hx)
  · exact inv_of_runningInv hrun (runningInv_of_inputs_cmdErr (h.1 hrun) _ _)
  · exact h

end Sys2Proof.Proofs
end

section
/-! PROOFS. Words sent on the port of a running block run as their commands, one step each (R66, R84). -/

namespace Sys2Proof.Proofs

open Sys2Proof.Machine Sys2Proof.Laws

/-- A step of a running block that is offered a word runs the word, which has left the queue (R66). -/
theorem step_command {s : State} {w : Word} {rest : List HostInput} (hrun : s.cfgErr = false)
    (hin : s.inputs = .command w :: rest) : step s = runWord w { s with inputs := rest } := by
  simp [step, serveInput, hin, hrun, takeInput]

/-- A word that decodes runs its command (R84). -/
theorem runWord_of_decode {w : Word} {i : Instr} (hd : decode w = .ok i) (s : State) : runWord w s = exec i s := by
  rw [runWord, hd]

/-- Settles O6. -/
theorem stepRunsTheDecodedCommand : Obligations.StepRunsTheDecodedCommand :=
  fun _ _ _ _ hrun hin hd => (step_command hrun hin).trans (runWord_of_decode hd _)

/-- A run whose first step answers s' continues from s'. -/
theorem run_succ {M : Host.Core} {s s' : M.State} (h : M.step s = .next s') (k : Nat) :
    M.run (k + 1) s = M.run k s' := by
  rw [Host.Core.run, h]

/-- Running a list of commands is running the first one, and the rest from the state it answers (R66). -/
theorem execAll_cons {i : Instr} {s s' : State} (h : exec i s = .next s') (rest : List Instr) :
    execAll (i :: rest) s = execAll rest s' := by
  rw [execAll, h]

/-- Commands sent on an empty queue are the whole queue. -/
theorem sendCommands_of_empty {s : State} (hin : s.inputs = []) (cmds : List Instr) :
    sendCommands cmds s = { s with inputs := cmds.map fun i => .command (encode i) } := by
  rw [sendCommands, hin, List.nil_append]

/-- With the words of well-formed commands queued on a running block, a step runs the first of them and leaves the
others queued. -/
theorem step_sendCommands_cons {i : Instr} {s s' : State} (hrun : s.cfgErr = false) (hin : s.inputs = [])
    (hi : i.wf = true) (h : exec i s = .next s') (rest : List Instr) :
    step (sendCommands (i :: rest) s) = .next (sendCommands rest s') := by
  obtain ⟨-, -, -, -, hinputs, -⟩ := exec_frame h
  rw [sendCommands_of_empty hin, sendCommands_of_empty (hinputs.trans hin)]
  exact (stepRunsTheDecodedCommand { s with inputs := (i :: rest).map fun i => .command (encode i) } _ _ i hrun rfl
    (decode_encode hi)).trans (exec_withInputs i h _)

/-- Settles O43, by induction on the commands: one step runs the first and leaves the words of the rest queued. -/
theorem sentCommandsRunInOrder : Obligations.SentCommandsRunInOrder := by
  intro cmds
  induction cmds with
  | nil =>
    intro s t _ hin _ h
    cases h
    simp [Host.Core.run, sendCommands]
  | cons i rest ih =>
    intro s t hrun hin hwf h
    have hexec := exec_eq_applyActions i s
    obtain ⟨-, -, -, hcfgErr, hinputs, -⟩ := exec_frame hexec
    obtain ⟨hi, hrest⟩ := List.forall_mem_cons.1 hwf
    rw [execAll_cons hexec] at h
    exact (run_succ (M := Sys2Proof.core) (step_sendCommands_cons hrun hin hi hexec rest) rest.length).trans
      (ih _ t (hcfgErr.trans hrun) (hinputs.trans hin) hrest h)

/-- A rewrite of LIVE with the samples it holds changes nothing. -/
theorem memRewriteLive_self {s : State} (hlive : s.live.wf = true) {f : Nat → Sample} {n : Nat}
    (h : ∀ i, i < n → s.live.read i = f i) : memRewrite s .live f n = s := by
  rw [memRewrite, writeSeq_self hlive h]

/-- What MIX writes depends on the configuration and the knobs, which MIX leaves: a second MIX rewrites LIVE with the
samples it holds and the diagnostic registers with their values (R120). -/
theorem execMix_execMix {s t : State} (hlive : s.live.wf = true) (h : execMix s = .next t) :
    execMix t = .next t := by
  have hwf : t.live.wf = true := by
    cases h
    exact writeSeq_wf hlive _ _
  have hsamples : ∀ i, i < t.cfg.sampleSize →
      t.live.read i = mixSample t.cfg (currentIndex t) (currentMix t) i := by
    cases h
    exact fun i hi => (read_writeSeq hlive _ s.cfg.sampleSize i).trans (if_pos hi)
  have hdiag : writeDiag (currentIndex t) (currentMix t) t = t := by
    cases h
    rfl
  rw [execMix, memRewriteLive_self hwf hsamples, hdiag]

/-- Settles O26. -/
theorem mixAgainChangesNothing : Obligations.MixAgainChangesNothing :=
  fun _ _ _ _ hlive h => execMix_execMix hlive h

end Sys2Proof.Proofs
end

section
/-! PROOFS. The values a renderer read may return while a command runs: the stores of its actions, and what the last
one leaves (R63, R64, R67, R68). -/

namespace Sys2Proof.Proofs

open Sys2Proof.Machine Sys2Proof.Laws

/-- The memory of a buffer. -/
def bufferMemory (s : State) : Buffer → Memory
  | .live => s.live
  | .env => s.env

theorem memRead_space (s : State) (b : Buffer) (a : Nat) : memRead s b.space a = (bufferMemory s b).read a := by
  cases b <;> rfl

theorem bufferMemory_memWrite (s : State) (b b' : Buffer) (i : Nat) (v : Sample) :
    bufferMemory (memWrite s b' i v) b = if b' = b then (bufferMemory s b).write i v else bufferMemory s b := by
  cases b <;> cases b' <;> rfl

theorem storesTo_store (b b' : Buffer) (a i : Nat) (v : Sample) :
    storesTo b a [.store b' i v] = if b' = b ∧ i = a then [v] else [] := by
  by_cases h : b' = b ∧ i = a <;> simp [storesTo, h]

section

variable {s : State} {b : Buffer} (h : (bufferMemory s b).wf = true)
include h

/-- An action keeps the canonical form of a buffer (R61). -/
theorem applyAction_wf (act : Action) : (bufferMemory (applyAction s act) b).wf = true := by
  cases act with
  | store b' i v =>
    rw [applyAction, bufferMemory_memWrite]
    split
    · exact write_wf h i v
    · exact h
  | _ => cases b <;> exact h

/-- Of one sample an action leaves what it stores to it, or else what was there. -/
theorem memRead_applyAction (act : Action) (a : Nat) :
    memRead (applyAction s act) b.space a = (storesTo b a [act]).getLastD (memRead s b.space a) := by
  cases act with
  | store b' i v =>
    rw [applyAction, storesTo_store, memRead_space, memRead_space, bufferMemory_memWrite]
    by_cases hb : b' = b
    · rw [if_pos hb, read_write h]
      by_cases ha : i = a <;> simp [hb, ha, eq_comm (a := a)]
    · simp [hb]
  | _ => cases b <;> rfl

/-- Of one sample a list of actions leaves the last value it stores to it, or else what was there. -/
theorem memRead_applyActions (acts : List Action) (a : Nat) :
    memRead (applyActions acts s) b.space a = (storesTo b a acts).getLastD (memRead s b.space a) := by
  induction acts generalizing s with
  | nil => rfl
  | cons act acts ih =>
    rw [applyActions_cons, ih (applyAction_wf h act), memRead_applyAction h,
      ← List.singleton_append (x := act) (l := acts), storesTo_append]
    simp only [List.getLastD_eq_getLast?, List.getLast?_append, Option.getD_or]

end

/-- A rewrite and actions that store nothing to a sample store to it at most once. -/
theorem storesTo_rewrite_append (b : Buffer) (f : Nat → Sample) (n : Nat) {b' : Buffer} {a : Nat} {rest : List Action}
    (hrest : storesTo b' a rest = []) :
    ∃ o : Option Sample, storesTo b' a (rewriteActions b f n ++ rest) = o.toList := by
  rw [storesTo_append, storesTo_rewrite, hrest]
  split
  · exact ⟨some (f a), rfl⟩
  · exact ⟨none, rfl⟩

/-- A command stores to each sample at most once (R119, R142). -/
theorem storesTo_commandActions (s : State) (i : Instr) (b : Buffer) (a : Nat) :
    ∃ o : Option Sample, storesTo b a (commandActions s i) = o.toList := by
  cases i with
  | noteon note vel =>
    rcases Nat.eq_zero_or_pos vel with rfl | hv
    · rw [commandActions_noteon_zero]
      exact ⟨none, rfl⟩
    · rw [commandActions_noteon_pos hv]
      exact storesTo_rewrite_append _ _ _ rfl
  | mix => exact storesTo_rewrite_append _ _ _ rfl
  | _ => exact ⟨none, rfl⟩

/-- Before any event of a command is received, a read may see the sample as it was or the one value the command stores
to it, which is the sample the command leaves (R64). -/
theorem mem_readsDuring_command {i : Instr} {s t : State} {b : Buffer} (h : (bufferMemory s b).wf = true)
    (hx : exec i s = .next t) (a : Nat) (v : Sample) :
    v ∈ readsDuring s (commandActions s i) 0 b a ↔ v = rendererRead s b a ∨ v = rendererRead t b a := by
  obtain ⟨hcfg, -⟩ := exec_frame hx
  unfold readsDuring rendererRead
  rw [hcfg]
  split
  · obtain ⟨o, ho⟩ := storesTo_commandActions s i b a
    have ht : memRead t b.space a = o.getD (memRead s b.space a) := by
      rw [exec_eq_applyActions] at hx
      cases hx
      rw [memRead_applyActions h, ho]
      cases o <;> rfl
    rw [splitAtEvent, ho, ht]
    cases o <;> simp [applyActions]
  · simp

/-- Outside a buffer the renderer reads 0 (R63). -/
theorem rendererRead_outside {s : State} {b : Buffer} {a : Nat} (h : spaceSize s.cfg b.space ≤ a) :
    rendererRead s b a = 0#16 := if_neg (Nat.not_lt.2 h)

/-- Settles O47: the admitted values by the command's one store to the sample, and R63's 0 outside the buffer. -/
theorem racingReadReturnsOldOrNew : Obligations.RacingReadReturnsOldOrNew := by
  intro i s t b a v hlive henv hx
  have hwf : (bufferMemory s b).wf = true := by cases b <;> assumption
  refine ⟨mem_readsDuring_command hwf hx a v, fun ha => ⟨rendererRead_outside ha, rendererRead_outside ?_⟩⟩
  rwa [(exec_frame hx).1]

/-- The split at an event loses no action. -/
theorem splitAtEvent_append (n : Nat) (acts : List Action) :
    (splitAtEvent n acts).1 ++ (splitAtEvent n acts).2 = acts := by
  induction n, acts using splitAtEvent.induct with
  | case1 acts => simp [splitAtEvent]
  | case2 n => simp [splitAtEvent]
  | case3 n e acts ih => simpa [splitAtEvent] using ih
  | case4 n a acts hne ih => simpa [splitAtEvent] using ih

/-- Once an event behind a whole rewrite of ENV is received, a read of ENV[i] returns what the rewrite stored (R67). -/
theorem readsDuring_envRewrite {s : State} (h : s.env.wf = true) (f : Nat → Sample) {i n : Nat}
    (hi : i < s.cfg.envLen) (hn : 1 ≤ n) {rest : List Action} (hrest : storesTo .env i rest = []) :
    readsDuring s (rewriteActions .env f s.cfg.envLen ++ rest) n .env i = [f i] := by
  obtain ⟨m, rfl⟩ : ∃ m, n = m + 1 := ⟨n - 1, by omega⟩
  have hspace : i < spaceSize s.cfg Buffer.env.space := hi
  rw [← splitAtEvent_append (m + 1) rest, storesTo_append] at hrest
  obtain ⟨hbefore, hafter⟩ := List.append_eq_nil_iff.1 hrest
  rw [readsDuring, if_pos hspace, splitAtEvent_rewrite, memRead_applyActions (b := .env) h, storesTo_append,
    storesTo_rewrite, if_pos ⟨rfl, hi⟩, hbefore, hafter]
  rfl

/-- A rewrite emits no event. -/
theorem emitted_rewriteActions (b : Buffer) (f : Nat → Sample) (n : Nat) : emitted (rewriteActions b f n) = [] := by
  simp [emitted, rewriteActions]

/-- A press emits ENV_INSTALL, then PRESS (R152). -/
theorem emitted_pressActions (note vel : Nat) (s : State) :
    emitted (pressActions note vel s) = [.envInstall s.holdIndex, .press (noteOperand note)] := by
  have hrewrite := emitted_rewriteActions .env (envSample s.cfg vel) s.cfg.envLen
  unfold emitted at hrewrite ⊢
  rw [pressActions, List.filterMap_append, hrewrite]
  rfl

/-- An attack sample lies between 0 and PEAK (R138, R141). -/
theorem attackSample_range {cfg : Config} (h : configLegal cfg = true) {A i : Int} (h0 : 0 ≤ i) (hi : i < A) :
    0 ≤ attackSample cfg A i ∧ attackSample cfg A i ≤ peak := by
  obtain ⟨hden, -, hnum⟩ := legal_floor h
  have hrise : 0 ≤ ((cfg.floorDen : Int) - cfg.floorNum) * i := mul_nonneg (by omega) h0
  have htop : ((cfg.floorDen : Int) - cfg.floorNum) * i ≤ ((cfg.floorDen : Int) - cfg.floorNum) * A :=
    mul_le_mul_of_nonneg_left hi.le (by omega)
  have hfloor : 0 ≤ (cfg.floorNum : Int) * A := mul_nonneg (by omega) (by omega)
  have hpeak : 0 ≤ peak := by decide
  refine floorDiv_between (mul_pos (by omega) (by omega)) ?_ (mul_le_mul_of_nonneg_left (by linarith) hpeak)
  rw [zero_mul]
  exact mul_nonneg hpeak (by linarith)

/-- A release sample lies between 0 and PEAK (R140, R141). -/
theorem releaseSample_range {L j : Int} (hL : 2 ≤ L) (h0 : 0 ≤ j) (hj : j ≤ L - 1) :
    0 ≤ releaseSample L j ∧ releaseSample L j ≤ peak := by
  have hpeak : 0 ≤ peak := by decide
  have hsquare : (L - 1 - j) ^ 2 ≤ (L - 1) ^ 2 := pow_le_pow_left₀ (by omega) (by omega) 2
  refine floorDiv_between (pow_pos (by omega) 2) ?_ (mul_le_mul_of_nonneg_left hsquare hpeak)
  rw [zero_mul]
  exact mul_nonneg hpeak (sq_nonneg _)

/-- Every envelope value lies between 0 and PEAK, in its own segment (R134, R141). -/
theorem envValue_range {cfg : Config} (h : configLegal cfg = true) {v i : Nat} (hv : v ≤ velMax)
    (hi : i < cfg.envLen) : 0 ≤ envValue cfg v i ∧ envValue cfg v i ≤ peak := by
  obtain ⟨-, -, hrelease, -, hsustain, hsum⟩ := segments_legal h hv
  unfold envValue
  dsimp only
  split
  · exact attackSample_range h (by omega) (by assumption)
  · split
    · exact ⟨by decide, le_rfl⟩
    · exact releaseSample_range hrelease (by omega) (by omega)

/-- An envelope value survives the narrowing of its sample write (R141). -/
theorem toInt_envSample {cfg : Config} (h : configLegal cfg = true) {v i : Nat} (hv : v ≤ velMax)
    (hi : i < cfg.envLen) : (envSample cfg v i).toInt = envValue cfg v i := by
  obtain ⟨h0, h1⟩ := envValue_range h hv hi
  unfold peak at h1
  exact toInt_narrow16 (by omega) h1

/-- Settles O48: the press is a whole rewrite of ENV and four actions that store nothing, the two emits first. -/
theorem installMeansTheEnvelopeIsComplete : Obligations.InstallMeansTheEnvelopeIsComplete := by
  intro s k v i n hc henv hv hvmax hi hn
  rw [commandActions_noteon_pos hv]
  exact ⟨readsDuring_envRewrite henv _ hi hn rfl, toInt_envSample hc hvmax hi, emitted_pressActions k v s⟩

end Sys2Proof.Proofs
end

section
/-! PROOFS. The encoding: which fields a row of the opcode map fixes, a legal word as the one word of its command, and
the grounds on which a word is illegal (R81 to R85, R92). -/

namespace Sys2Proof.Proofs

open Sys2Proof.Machine Sys2Proof.Laws

/-- Settles O2. -/
theorem decodeOfEncodeIsTheCommand : Obligations.DecodeOfEncodeIsTheCommand :=
  fun _ => decode_encode

/-- Two fields are equal when their parts above and below a cut are. -/
theorem extractLsb'_add_eq_iff {n : Nat} (w v : BitVec n) (start low high : Nat) :
    w.extractLsb' start (high + low) = v.extractLsb' start (high + low) ↔
      w.extractLsb' (start + low) high = v.extractLsb' (start + low) high ∧
        w.extractLsb' start low = v.extractLsb' start low := by
  rw [← BitVec.extractLsb'_append_extractLsb'_eq_extractLsb' (x := w) rfl,
    ← BitVec.extractLsb'_append_extractLsb'_eq_extractLsb' (x := v) rfl]
  constructor
  · intro h
    have hhigh := congrArg (BitVec.extractLsb' low high) h
    have hlow := congrArg (BitVec.extractLsb' 0 low) h
    rw [BitVec.extractLsb'_append_eq_left, BitVec.extractLsb'_append_eq_left] at hhigh
    rw [BitVec.extractLsb'_append_eq_right, BitVec.extractLsb'_append_eq_right] at hlow
    exact ⟨hhigh, hlow⟩
  · rintro ⟨hhigh, hlow⟩
    rw [hhigh, hlow]

/-- Two words are equal when their fields OP, w[27:16] and RAW are (R81). -/
theorem word_eq_iff (w v : Word) :
    w = v ↔ w.extractLsb' 28 4 = v.extractLsb' 28 4 ∧ w.extractLsb' 16 12 = v.extractLsb' 16 12 ∧
      w.extractLsb' 0 16 = v.extractLsb' 0 16 := by
  rw [← extractLsb'_add_eq_iff w v 0 16 12, ← extractLsb'_add_eq_iff w v 0 28 4, BitVec.extractLsb'_eq_self,
    BitVec.extractLsb'_eq_self]

/-- The low half of a word is bit 15, NOTE, bit 7 and VEL (R81). -/
theorem low_eq_iff (w v : Word) :
    w.extractLsb' 0 16 = v.extractLsb' 0 16 ↔ w.extractLsb' 15 1 = v.extractLsb' 15 1 ∧
      w.extractLsb' 8 7 = v.extractLsb' 8 7 ∧ w.extractLsb' 7 1 = v.extractLsb' 7 1 ∧
      w.extractLsb' 0 7 = v.extractLsb' 0 7 := by
  rw [extractLsb'_add_eq_iff w v 0 15 1, extractLsb'_add_eq_iff w v 0 8 7, extractLsb'_add_eq_iff w v 0 7 1]

/-- The opcode of a mnemonic (R82). -/
def opCode : Op → Nat
  | .noteon => 1
  | .noteoff => 2
  | .knoba => 3
  | .knobb => 4
  | .mix => 5

/-- The bits below bit 16 that R81 marks 'must be 0' in a command's word are 0. -/
def lowBitsZero : Op → Word → Prop
  | .noteon, w => w.extractLsb' 15 1 = 0#1 ∧ w.extractLsb' 7 1 = 0#1
  | .noteoff, w => w.extractLsb' 15 1 = 0#1 ∧ w.extractLsb' 7 1 = 0#1 ∧ w.extractLsb' 0 7 = 0#7
  | .knoba, _ => True
  | .knobb, _ => True
  | .mix, w => w.extractLsb' 0 16 = 0#16

/-- Every mask of the map covers the top half, where every pattern has its opcode and 0; no pattern has a bit below
bit 16 (R82). -/
theorem opcodeMap_fields : ∀ r ∈ opcodeMap,
    r.mask.extractLsb' 28 4 = BitVec.allOnes 4 ∧ r.pattern.extractLsb' 28 4 = BitVec.ofNat 4 (opCode r.op) ∧
      r.mask.extractLsb' 16 12 = BitVec.allOnes 12 ∧ r.pattern.extractLsb' 16 12 = 0#12 ∧
      r.pattern.extractLsb' 0 16 = 0#16 := by
  decide

theorem opField_eq_opCode_iff (w : Word) (op : Op) :
    opField w = opCode op ↔ w.extractLsb' 28 4 = BitVec.ofNat 4 (opCode op) := by
  have h : opCode op < 2 ^ 4 := by cases op <;> decide
  rw [opField, ← BitVec.toNat_inj, BitVec.toNat_ofNat, Nat.mod_eq_of_lt h]

/-- The low half of a mask picks the must-be-zero bits of its row (R81, R82). -/
theorem low_and_mask_eq_zero_iff {r : OpRow} (hr : r ∈ opcodeMap) (w : Word) :
    (w &&& r.mask).extractLsb' 0 16 = (0#32).extractLsb' 0 16 ↔ lowBitsZero r.op w := by
  have h1 (x : BitVec 1) : x &&& 1#1 = x := BitVec.and_allOnes
  have h7 (x : BitVec 7) : x &&& 127#7 = x := BitVec.and_allOnes
  have h16 (x : BitVec 16) : x &&& 65535#16 = x := BitVec.and_allOnes
  simp only [opcodeMap, List.mem_cons, List.not_mem_nil, or_false] at hr
  rcases hr with rfl | rfl | rfl | rfl | rfl
  · rw [low_eq_iff]
    simp [BitVec.extractLsb'_and, lowBitsZero, h1]
  · rw [low_eq_iff]
    simp [BitVec.extractLsb'_and, lowBitsZero, h1, h7]
  · simp [BitVec.extractLsb'_and, lowBitsZero]
  · simp [BitVec.extractLsb'_and, lowBitsZero]
  · simp [BitVec.extractLsb'_and, lowBitsZero, h16]

/-- A row selects the words that carry its opcode and 0 in every must-be-zero bit (R81, R82). -/
theorem selects_iff {r : OpRow} (hr : r ∈ opcodeMap) (w : Word) : r.selects w = true ↔
    opField w = opCode r.op ∧ w.extractLsb' 16 12 = 0#12 ∧ lowBitsZero r.op w := by
  obtain ⟨hopmask, hop, hmidmask, hmid, hlow⟩ := opcodeMap_fields r hr
  rw [OpRow.selects, beq_iff_eq, word_eq_iff, BitVec.extractLsb'_and, hopmask, BitVec.and_allOnes, hop,
    BitVec.extractLsb'_and, hmidmask, BitVec.and_allOnes, hmid, opField_eq_opCode_iff, hlow,
    ← low_and_mask_eq_zero_iff hr w]
  rfl

/-- The low half of a legal word is its operands (R81, R83). -/
theorem low_eq_of_operands {op : Op} {w v : Word} (hw : lowBitsZero op w) (hv : lowBitsZero op v)
    (h : assembleOperands op w = assembleOperands op v) : w.extractLsb' 0 16 = v.extractLsb' 0 16 := by
  cases op with
  | noteon =>
    injection h with hnote hvel
    obtain ⟨h15, h7⟩ := hw
    obtain ⟨h15', h7'⟩ := hv
    exact (low_eq_iff w v).2 ⟨h15.trans h15'.symm, BitVec.eq_of_toNat_eq hnote, h7.trans h7'.symm,
      BitVec.eq_of_toNat_eq hvel⟩
  | noteoff =>
    injection h with hnote
    obtain ⟨h15, h7, hvel⟩ := hw
    obtain ⟨h15', h7', hvel'⟩ := hv
    exact (low_eq_iff w v).2 ⟨h15.trans h15'.symm, BitVec.eq_of_toNat_eq hnote, h7.trans h7'.symm,
      hvel.trans hvel'.symm⟩
  | knoba =>
    injection h with hraw
    exact BitVec.eq_of_toNat_eq hraw
  | knobb =>
    injection h with hraw
    exact BitVec.eq_of_toNat_eq hraw
  | mix => exact hw.trans hv.symm

/-- The words a row selects differ in its operands only (R81, R83). -/
theorem eq_of_selects {r : OpRow} (hr : r ∈ opcodeMap) {w v : Word} (hw : r.selects w = true)
    (hv : r.selects v = true) (h : assembleOperands r.op w = assembleOperands r.op v) : w = v := by
  obtain ⟨hopw, hmidw, hloww⟩ := (selects_iff hr w).1 hw
  obtain ⟨hopv, hmidv, hlowv⟩ := (selects_iff hr v).1 hv
  exact (word_eq_iff w v).2 ⟨BitVec.eq_of_toNat_eq (hopw.trans hopv.symm), hmidw.trans hmidv.symm,
    low_eq_of_operands hloww hlowv h⟩

/-- The row of the map is the row of each of its commands. -/
theorem rowOf_assembleOperands (w : Word) : ∀ r ∈ opcodeMap, rowOf (assembleOperands r.op w) = r := by
  simp [opcodeMap, rowOf, assembleOperands]

/-- The encoder inverts the decoder (R84, R92). -/
theorem encode_of_decode {w : Word} {i : Instr} (h : decode w = .ok i) : encode i = w := by
  obtain ⟨r, hr, hsel, rfl⟩ := decode_ok h
  have hwf := assembleOperands_wf r.op w
  have hrow := rowOf_assembleOperands w r hr
  have henc := assembleOperands_encode hwf
  obtain ⟨-, hsel'⟩ := rowOf_selects_encode _ hwf
  rw [hrow] at henc hsel'
  exact eq_of_selects hr hsel' hsel henc

/-- Settles O3. -/
theorem encodeOfDecodeIsTheWord : Obligations.EncodeOfDecodeIsTheWord :=
  fun _ _ h => ⟨decode_wf h, encode_of_decode h⟩

/-- A field of one bit is 0 when its bit is. -/
theorem extractLsb'_one_eq_zero_iff {n : Nat} (w : BitVec n) (k : Nat) :
    w.extractLsb' k 1 = 0#1 ↔ w.getLsbD k = false := by
  simp [BitVec.eq_of_getLsbD_eq_iff]

theorem velField_eq_zero_iff (w : Word) : velField w = 0 ↔ w.extractLsb' 0 7 = 0#7 :=
  BitVec.toNat_inj (y := 0#7)

theorem rawField_eq_zero_iff (w : Word) : rawField w = 0 ↔ w.extractLsb' 0 16 = 0#16 :=
  BitVec.toNat_inj (y := 0#16)

/-- A word is legal when it has a command's opcode and 0 in each of that command's must-be-zero bits (R81, R84). -/
theorem decode_ok_iff (w : Word) : (∃ i, decode w = .ok i) ↔
    ∃ op, opField w = opCode op ∧ w.extractLsb' 16 12 = 0#12 ∧ lowBitsZero op w := by
  constructor
  · rintro ⟨i, h⟩
    obtain ⟨r, hr, hsel, -⟩ := decode_ok h
    exact ⟨r.op, (selects_iff hr w).1 hsel⟩
  · rintro ⟨op, h⟩
    obtain ⟨r, hr, rfl⟩ : ∃ r ∈ opcodeMap, r.op = op := by cases op <;> simp [opcodeMap]
    exact ⟨_, decode_of_selects hr ((selects_iff hr w).2 h)⟩

theorem decode_error_iff (w : Word) : (∃ e, decode w = .error e) ↔ ¬ ∃ i, decode w = .ok i := by
  cases decode w <;> simp

theorem opCode_range (op : Op) : 1 ≤ opCode op ∧ opCode op ≤ 5 := by
  cases op <;> decide

theorem opCode_injective : Function.Injective opCode := by
  intro op op' h
  cases op <;> cases op' <;> cases h <;> rfl

/-- An opcode is reserved or a command's (R82, R85). -/
theorem reserved_or_opCode (n : Nat) : (n = 0 ∨ 6 ≤ n) ∨ ∃ op, n = opCode op := by
  by_cases h : n = 0 ∨ 6 ≤ n
  · exact .inl h
  · right
    obtain rfl | rfl | rfl | rfl | rfl : n = 1 ∨ n = 2 ∨ n = 3 ∨ n = 4 ∨ n = 5 := by omega
    exacts [⟨.noteon, rfl⟩, ⟨.noteoff, rfl⟩, ⟨.knoba, rfl⟩, ⟨.knobb, rfl⟩, ⟨.mix, rfl⟩]

/-- With a reserved opcode a word is illegal. -/
theorem decode_error_of_reserved {w : Word} (h : opField w = 0 ∨ 6 ≤ opField w) : ∃ e, decode w = .error e := by
  rw [decode_error_iff, decode_ok_iff]
  rintro ⟨op, hop, -⟩
  have := opCode_range op
  omega

/-- With a command's opcode a word is illegal when one of that command's must-be-zero bits is 1. -/
theorem decode_error_iff_of_opCode {w : Word} {op : Op} (h : opField w = opCode op) :
    (∃ e, decode w = .error e) ↔ w.extractLsb' 16 12 ≠ 0#12 ∨ ¬ lowBitsZero op w := by
  have hok : (∃ i, decode w = .ok i) ↔ w.extractLsb' 16 12 = 0#12 ∧ lowBitsZero op w := by
    rw [decode_ok_iff]
    constructor
    · rintro ⟨op', hop', hzero⟩
      rwa [← opCode_injective (hop'.symm.trans h)]
    · exact fun hzero => ⟨op, h, hzero⟩
  rw [decode_error_iff, hok, not_and_or]

/-- An illegal word sets CMD_ERR and does nothing else (R182). -/
theorem runWord_of_illegal {w : Word} {e : Illegal} (h : decode w = .error e) (s : State) :
    runWord w s = .next { s with cmdErr := true } := by
  rw [runWord, h]
  rfl

/-- Settles O4: a reserved opcode is a ground by itself; under a command's opcode the grounds are that command's
must-be-zero bits. -/
theorem wordIsIllegalExactlyWhenReserved : Obligations.WordIsIllegalExactlyWhenReserved := by
  refine fun w => ⟨?_, fun ⟨_, he⟩ => runWord_of_illegal he⟩
  rcases reserved_or_opCode (opField w) with hop | ⟨op, hop⟩
  · exact iff_of_true (decode_error_of_reserved hop) (.inl hop)
  · rw [decode_error_iff_of_opCode hop, hop]
    cases op with
    | noteon => simp [lowBitsZero, opCode, extractLsb'_one_eq_zero_iff, imp_iff_not_or]
    | noteoff =>
      simp [lowBitsZero, opCode, extractLsb'_one_eq_zero_iff, velField_eq_zero_iff, imp_iff_not_or, or_assoc]
    | knoba => simp [lowBitsZero, opCode]
    | knobb => simp [lowBitsZero, opCode]
    | mix => simp [lowBitsZero, opCode, rawField_eq_zero_iff]

theorem eq_of_op_eq : ∀ r ∈ opcodeMap, ∀ r' ∈ opcodeMap, r'.op = r.op → r' = r := by
  decide

/-- A command names its mnemonic. -/
theorem op_rowOf_assembleOperands (op : Op) (w : Word) : (rowOf (assembleOperands op w)).op = op := by
  cases op <;> rfl

/-- Settles O5: a row that selects the word has the word's OP, and a command names its row. -/
theorem atMostOneRowSelectsAWord : Obligations.AtMostOneRowSelectsAWord := by
  refine fun w => ⟨fun r hr r' hr' h h' => ?_, fun r hr => ⟨decode_of_selects hr, fun h => ?_⟩,
    fun _ => decode_ok⟩
  · exact eq_of_pattern_eq r hr r' hr' ((pattern_of_selects hr' h').trans (pattern_of_selects hr h).symm)
  · obtain ⟨r', hr', hsel, hi⟩ := decode_ok h
    have hop : r'.op = r.op := by rw [← op_rowOf_assembleOperands r'.op w, ← hi, op_rowOf_assembleOperands]
    rwa [← eq_of_op_eq r hr r' hr' hop]

/-- Settles O1. -/
theorem decodeGivesTheTableWords : Obligations.DecodeGivesTheTableWords := by
  unfold Obligations.DecodeGivesTheTableWords
  decide

end Sys2Proof.Proofs
end

section
/-! PROOFS. The words the block gives out and the assembler makes: the event read back from its word (R90), and the
words of a line (R92, R93). -/

namespace Sys2Proof.Proofs

open Sys2Proof.Machine Sys2Proof.Laws

/-- The fields of ENV_INSTALL's word (R90). -/
theorem word_envInstall_fields (h : Reg16) : (Event.word (.envInstall h)).extractLsb' 28 4 = 1#4 ∧
    (Event.word (.envInstall h)).extractLsb' 16 12 = 0#12 ∧ (Event.word (.envInstall h)).extractLsb' 0 16 = h :=
  have top {start len : Nat} (hs : 16 ≤ start) :
      (Event.word (.envInstall h)).extractLsb' start len = (0x1#4 ++ 0#12).extractLsb' (start - 16) len :=
    BitVec.extractLsb'_append_eq_of_le hs
  ⟨top (by decide), top (by decide), BitVec.extractLsb'_append_eq_right⟩

/-- The word of an event about a note: an opcode, and the note above eight zero bits (R90). -/
def noteWord (op : BitVec 4) (n : Note) : Word := op ++ 0#13 ++ n ++ 0#8

theorem word_press (n : Note) : Event.word (.press n) = noteWord 2#4 n := rfl

theorem word_releaseThenPress (n : Note) : Event.word (.releaseThenPress n) = noteWord 3#4 n := rfl

theorem noteWord_fields (op : BitVec 4) (n : Note) : (noteWord op n).extractLsb' 28 4 = op ∧
    (noteWord op n).extractLsb' 15 13 = 0#13 ∧ (noteWord op n).extractLsb' 8 7 = n ∧
    (noteWord op n).extractLsb' 0 8 = 0#8 :=
  have top {start len : Nat} (hs : 15 ≤ start) :
      (noteWord op n).extractLsb' start len = (op ++ 0#13).extractLsb' (start - 8 - 7) len :=
    (BitVec.extractLsb'_append_eq_of_le (by omega)).trans (BitVec.extractLsb'_append_eq_of_le (by omega))
  ⟨(top (by decide)).trans BitVec.extractLsb'_append_eq_left,
    (top (by decide)).trans BitVec.extractLsb'_append_eq_right,
    (BitVec.extractLsb'_append_eq_of_le le_rfl).trans BitVec.extractLsb'_append_eq_right,
    BitVec.extractLsb'_append_eq_right⟩

/-- The event a word stands for, read from its fields. -/
def wordEvent (w : Word) : Event :=
  if w.extractLsb' 28 4 = 1#4 then .envInstall (w.extractLsb' 0 16)
  else if w.extractLsb' 28 4 = 2#4 then .press (w.extractLsb' 8 7)
  else .releaseThenPress (w.extractLsb' 8 7)

/-- An event reads back from its word (R90). -/
theorem wordEvent_word : Function.LeftInverse wordEvent Event.word := by
  intro e
  cases e with
  | envInstall h =>
    obtain ⟨hop, -, hlow⟩ := word_envInstall_fields h
    rw [wordEvent, if_pos hop, hlow]
  | press n =>
    obtain ⟨hop, -, hnote, -⟩ := noteWord_fields 2#4 n
    rw [word_press, wordEvent, if_neg (by rw [hop]; decide), if_pos hop, hnote]
  | releaseThenPress n =>
    obtain ⟨hop, -, hnote, -⟩ := noteWord_fields 3#4 n
    rw [word_releaseThenPress, wordEvent, if_neg (by rw [hop]; decide), if_neg (by rw [hop]; decide), hnote]

/-- Settles O52. -/
theorem eventWordsCarryTheirFields : Obligations.EventWordsCarryTheirFields := by
  refine ⟨fun h => ?_, fun n => ?_, fun n => ?_, fun _ _ h => wordEvent_word.injective h⟩
  · obtain ⟨hop, hzero, hlow⟩ := word_envInstall_fields h
    exact ⟨hop, hzero, hlow, rfl⟩
  · obtain ⟨hop, hzero, hnote, hlow⟩ := noteWord_fields 2#4 n
    exact ⟨hop, hzero, hnote, hlow, rfl⟩
  · obtain ⟨hop, hzero, hnote, hlow⟩ := noteWord_fields 3#4 n
    exact ⟨hop, hzero, hnote, hlow, rfl⟩

/-- A line other than .word assembles to the words of its commands when they are well formed (R92). -/
theorem assembleLine_eq {line : AsmLine} (h : ∀ value, line ≠ .word value) : assembleLine line =
    if (lineCommands line).all Instr.wf then .ok ((lineCommands line).map encode) else .error .operandRange := by
  cases line with
  | word value => exact absurd rfl (h value)
  | _ => rfl

/-- The words of well-formed commands decode to the commands (R84, R92). -/
theorem map_decode_encode {cmds : List Instr} (h : ∀ i ∈ cmds, i.wf = true) :
    (cmds.map encode).map decode = cmds.map Except.ok := by
  rw [List.map_map]
  exact List.map_congr_left fun i hi => decode_encode (h i hi)

theorem assembleLine_word (value : Nat) : assembleLine (.word value) =
    if value < 2 ^ 32 then .ok [BitVec.ofNat 32 value] else .error .operandRange := rfl

/-- A `.word` line assembles to a word exactly when the word has the line's value. -/
theorem assembleLine_word_iff (value : Nat) (w : Word) :
    assembleLine (.word value) = .ok [w] ↔ w.toNat = value := by
  have hw : w.toNat < 2 ^ 32 := w.isLt
  rw [assembleLine_word]
  constructor
  · intro h
    split at h
    · next hv =>
      cases h
      exact Nat.mod_eq_of_lt hv
    · cases h
  · rintro rfl
    rw [if_pos hw, BitVec.ofNat_toNat, BitVec.setWidth_eq]

/-- Settles O53. -/
theorem assembledWordsDecodeToTheLine : Obligations.AssembledWordsDecodeToTheLine := by
  refine ⟨fun line hline => ⟨fun hwf => ?_, fun ⟨i, hi, hwf⟩ => ?_⟩, fun value =>
    ⟨assembleLine_word_iff value, fun hv => ?_⟩⟩
  · exact ⟨_, (assembleLine_eq hline).trans (if_pos (List.all_eq_true.2 hwf)), map_decode_encode hwf⟩
  · rw [assembleLine_eq hline, if_neg]
    intro hall
    rw [List.all_eq_true.1 hall i hi] at hwf
    cases hwf
  · rw [assembleLine_word, if_neg (by omega)]

end Sys2Proof.Proofs
end

section
/-! PROOFS. Lines of text: each written form reads as its line, and comments, case and blanks change nothing
(R92, R93). -/

namespace Sys2Proof.Proofs

open Sys2Proof.Machine Sys2Proof.Laws

/-- A character a mnemonic or an operand is written with: lower case, neither white space, `,` nor `;`. -/
def isTokenChar (c : Char) : Bool := !isBlankChar c && c != ',' && c != ';' && c.toLower == c

theorem isTokenChar_iff (c : Char) :
    isTokenChar c = true ↔ isBlankChar c = false ∧ c ≠ ',' ∧ c ≠ ';' ∧ c.toLower = c := by
  simp [isTokenChar, and_assoc]

/-- A mnemonic or an operand as written: not empty, and each character one of a token. -/
def isToken (l : List Char) : Bool := !l.isEmpty && l.all isTokenChar

theorem isToken_iff (l : List Char) : isToken l = true ↔ l ≠ [] ∧ ∀ c ∈ l, isTokenChar c = true := by
  simp [isToken]

theorem isTokenChar_digitChar : ∀ d : Fin 16, isTokenChar (digitChar d.val) = true := by
  decide

/-- A written operand is a token. -/
theorem isToken_text (n : Numeral) : isToken n.text = true := by
  rw [isToken_iff]
  cases n with
  | decimal d ds =>
    refine ⟨List.cons_ne_nil _ _, fun c hc => ?_⟩
    obtain ⟨x, -, rfl⟩ := List.mem_map.1 hc
    exact isTokenChar_digitChar (x.castLE (by decide))
  | hex d ds =>
    refine ⟨List.cons_ne_nil _ _, fun c hc => ?_⟩
    rcases hc with _ | ⟨_, _ | ⟨_, hc⟩⟩
    · decide
    · decide
    · obtain ⟨x, -, rfl⟩ := List.mem_map.1 hc
      exact isTokenChar_digitChar x

/-- A written operand begins with a digit, no letter of a mnemonic. -/
theorem head?_text_ne (n : Numeral) : n.text.head? ≠ some 'n' := by
  cases n with
  | decimal d ds =>
    have h : ∀ d : Fin 10, some (digitChar d.val) ≠ some 'n' := by decide
    exact h d
  | hex d ds => simp [Numeral.text]

/-- Text that is its own clean and trimmed line: not empty, lower case, no `;`, no white space at either end. -/
structure Tidy (l : List Char) : Prop where
  ne_nil : l ≠ []
  clean : ∀ c ∈ l, c ≠ ';' ∧ c.toLower = c
  head : ∀ c ∈ l.head?, isBlankChar c = false
  last : ∀ c ∈ l.getLast?, isBlankChar c = false

theorem Tidy.trim_cleanLine {l : List Char} (h : Tidy l) : trim (cleanLine l) = l := by
  rw [cleanLine_id h.clean, trim_id h.head h.last]

theorem isToken_ne_nil {l : List Char} (h : isToken l = true) : l ≠ [] := ((isToken_iff l).1 h).1

/-- No character of a token is white space, `,` or `;`, and each is in lower case. -/
theorem mem_of_isToken {l : List Char} (h : isToken l = true) {c : Char} (hc : c ∈ l) :
    isBlankChar c = false ∧ c ≠ ',' ∧ c ≠ ';' ∧ c.toLower = c :=
  (isTokenChar_iff c).1 (((isToken_iff l).1 h).2 c hc)

theorem no_blank_of_isToken {l : List Char} (h : isToken l = true) : ∀ c ∈ l, isBlankChar c = false :=
  fun _ hc => (mem_of_isToken h hc).1

theorem tidy_of_isToken {l : List Char} (h : isToken l = true) : Tidy l where
  ne_nil := isToken_ne_nil h
  clean := fun _ hc => (mem_of_isToken h hc).2.2
  head := fun c hc => no_blank_of_isToken h c (List.mem_of_mem_head? hc)
  last := fun c hc => no_blank_of_isToken h c (List.mem_of_getLast? hc)

/-- Two tidy texts with a separator between them are a tidy text. -/
theorem Tidy.append {l sep r : List Char} (hl : Tidy l) (hsep : ∀ c ∈ sep, c ≠ ';' ∧ c.toLower = c)
    (hr : Tidy r) : Tidy (l ++ (sep ++ r)) where
  ne_nil := List.append_ne_nil_of_left_ne_nil hl.ne_nil _
  clean := by
    simp only [List.mem_append]
    rintro c (hc | hc | hc)
    exacts [hl.clean c hc, hsep c hc, hr.clean c hc]
  head := by
    rw [List.head?_append_of_ne_nil _ hl.ne_nil]
    exact hl.head
  last := by
    rw [← List.append_assoc, List.getLast?_append_of_ne_nil _ hr.ne_nil]
    exact hr.last

/-- A mnemonic, a space and a tidy rest read as the form they have (R92). -/
theorem readLine_of_readForm {m r : List Char} {line : AsmLine} (hm : isToken m = true) (hr : Tidy r)
    (h : readForm m r = some line) : readLine (m ++ ' ' :: r) = .ok line := by
  have htidy : Tidy (m ++ ' ' :: r) := (tidy_of_isToken hm).append (sep := [' ']) (by simp) hr
  simp only [readLine, htidy.trim_cleanLine, if_neg htidy.ne_nil,
    firstWord_append (no_blank_of_isToken hm) hr.head, h]

/-- Operands as a line writes them, a comma and a space between two. -/
def operandText : Numeral → List Numeral → List Char
  | n, [] => n.text
  | n, m :: ns => n.text ++ ([',', ' '] ++ operandText m ns)

theorem tidy_operandText (n : Numeral) (ns : List Numeral) : Tidy (operandText n ns) := by
  induction ns generalizing n with
  | nil => exact tidy_of_isToken (isToken_text n)
  | cons m ns ih => exact (tidy_of_isToken (isToken_text n)).append (by simp) (ih m)

theorem no_comma_append_text {p : List Char} (hp : ∀ c ∈ p, c ≠ ',') (n : Numeral) :
    ∀ c ∈ p ++ n.text, c ≠ ',' :=
  fun c hc => (List.mem_append.1 hc).elim (hp c) fun hn => (mem_of_isToken (isToken_text n) hn).2.1

theorem splitCommas_operandText {p : List Char} (hp : ∀ c ∈ p, c ≠ ',') (n : Numeral) (ns : List Numeral) :
    splitCommas (p ++ operandText n ns) = (p ++ n.text) :: ns.map fun m => ' ' :: m.text := by
  induction ns generalizing n p with
  | nil => exact splitCommas_single (no_comma_append_text hp n)
  | cons m ns ih =>
    calc splitCommas (p ++ operandText n (m :: ns))
        = splitCommas ((p ++ n.text) ++ ',' :: ([' '] ++ operandText m ns)) := by
          rw [operandText, List.append_assoc]; rfl
      _ = (p ++ n.text) :: splitCommas ([' '] ++ operandText m ns) :=
          splitCommas_append (no_comma_append_text hp n) _
      _ = (p ++ n.text) :: (m :: ns).map fun m => ' ' :: m.text := by
          rw [ih (p := [' ']) (by simp)]
          rfl

/-- A part between commas reads as its number; `trim` drops a space before it by reduction. -/
theorem readNumber_trim_text (n : Numeral) : readNumber (trim n.text) = some n.value := by
  have htidy := tidy_of_isToken (isToken_text n)
  rw [trim_id htidy.head htidy.last, readNumber_text]

theorem readOperands_operandText (n : Numeral) (ns : List Numeral) :
    readOperands (operandText n ns) = some (n.value :: ns.map Numeral.value) := by
  have hsplit := splitCommas_operandText (p := []) (by simp) n ns
  have hrest : (ns.map fun m => ' ' :: m.text).mapM (fun part => readNumber (trim part)) =
      some (ns.map Numeral.value) := by
    rw [List.mapM_map]
    exact (congrArg (ns.mapM ·) (funext readNumber_trim_text)).trans List.mapM_pure
  rw [readOperands, if_neg (tidy_operandText n ns).ne_nil]
  rw [List.nil_append] at hsplit
  simp [hsplit, readNumber_trim_text, hrest]

theorem head?_firstWord (l : List Char) : (firstWord l).1.head? = l.head?.filter fun c => !isBlankChar c :=
  List.head?_takeWhile

/-- A `cycle` line without an event: what begins with a digit is no mnemonic (R93). -/
theorem readCycle_operands {l : List Char} {rawA rawB : Nat} (hl : l.head? ≠ some 'n')
    (h : readOperands l = some [rawA, rawB]) : readCycle l = some (.cycle none rawA rawB) := by
  have hfirst : (firstWord l).1.head? ≠ some 'n' := by
    rw [head?_firstWord]
    exact fun heq => hl (Option.eq_some_of_filter_eq_some heq)
  unfold readCycle
  split
  · next heq => exact absurd (congrArg (fun p => p.1.head?) heq) hfirst
  · next heq => exact absurd (congrArg (fun p => p.1.head?) heq) hfirst
  · rw [h]

theorem head?_operandText_ne (n : Numeral) (ns : List Numeral) : (operandText n ns).head? ≠ some 'n' := by
  cases ns with
  | nil => exact head?_text_ne n
  | cons m ns =>
    rw [operandText, List.head?_append_of_ne_nil _ (isToken_ne_nil (isToken_text n))]
    exact head?_text_ne n

/-- A mnemonic with written operands reads as the form it has (R92). -/
theorem readLine_operands {m : List Char} (hm : isToken m = true) (n : Numeral) (ns : List Numeral)
    {line : AsmLine} (h : readForm m (operandText n ns) = some line) :
    readLine (m ++ ' ' :: operandText n ns) = .ok line :=
  readLine_of_readForm hm (tidy_operandText n ns) h

/-- A `cycle` line with an event reads as the form its event has (R93). -/
theorem readLine_cycle_event {m : List Char} (hm : isToken m = true) (n : Numeral) (ns : List Numeral)
    {line : AsmLine} (h : readCycle (m ++ ' ' :: operandText n ns) = some line) :
    readLine (['c', 'y', 'c', 'l', 'e'] ++ ' ' :: (m ++ ' ' :: operandText n ns)) = .ok line :=
  readLine_of_readForm rfl
    ((tidy_of_isToken hm).append (sep := [' ']) (by simp) (tidy_operandText n ns)) h

theorem firstWord_operands {m : List Char} (hm : isToken m = true) (n : Numeral) (ns : List Numeral) :
    firstWord (m ++ ' ' :: operandText n ns) = (m, operandText n ns) :=
  firstWord_append (no_blank_of_isToken hm) (tidy_operandText n ns).head

theorem toUpper_eq_semicolon_iff (c : Char) : c.toUpper = ';' ↔ c = ';' := by
  constructor
  · intro h
    have halpha : c.isAlpha = false := by
      rw [← Char.isAlpha_toUpper_eq_isAlpha, h]
      rfl
    have hlower : ¬ c.isLower := by
      rw [Char.isAlpha, Bool.or_eq_false_iff] at halpha
      simp [halpha.2]
    rw [← Char.toUpper_eq_of_not_isLower hlower, h]
  · rintro rfl
    rfl

theorem cleanLine_toUpper (l : List Char) : cleanLine (l.map Char.toUpper) = cleanLine l := by
  have hpred : ((fun c => c != ';') ∘ Char.toUpper) = fun c => c != ';' := by
    funext c
    simp [bne, toUpper_eq_semicolon_iff, Bool.beq_eq_decide_eq]
  have hlower : Char.toLower ∘ Char.toUpper = Char.toLower := funext Char.toLower_toUpper_eq_toLower
  rw [cleanLine, List.takeWhile_map, List.map_map, hlower]
  exact congrArg (fun p => (l.takeWhile p).map Char.toLower) hpred

/-- White space is in lower case and begins no comment. -/
theorem clean_of_isBlankChar {c : Char} (h : isBlankChar c = true) : c ≠ ';' ∧ c.toLower = c := by
  simp only [isBlankChar, Bool.or_eq_true, beq_iff_eq] at h
  rcases h with (rfl | rfl) | rfl <;> decide

theorem readLine_congr {l l' : List Char} (h : cleanLine l = cleanLine l') : readLine l = readLine l' := by
  rw [readLine, readLine, h]

/-- A line of white space reads as no command. -/
theorem readLine_blank {l : List Char} (h : ∀ c ∈ l, isBlankChar c = true) : readLine l = .ok .blank := by
  have htrim : trim (cleanLine l) = [] := by
    have hdrop : dropBlanks l = [] := List.dropWhile_eq_nil_iff.2 h
    rw [cleanLine_id fun c hc => clean_of_isBlankChar (h c hc), trim, hdrop]
    rfl
  simp only [readLine, htrim, if_pos]

/-- Settles O54: the operands of every form are tidy text that reads as their numbers, whatever mnemonic precedes. -/
theorem textLinesReadAsTheirForm : Obligations.TextLinesReadAsTheirForm := by
  refine ⟨fun a b c d => ?_, fun l comment => readLine_congr (cleanLine_comment l comment),
    fun l => readLine_congr (cleanLine_toUpper l), fun _ => readLine_blank⟩
  have one := readOperands_operandText a []
  have two := readOperands_operandText a [b]
  have hnoteon : isToken ['n', 'o', 't', 'e', 'o', 'n'] = true := rfl
  have hnoteoff : isToken ['n', 'o', 't', 'e', 'o', 'f', 'f'] = true := rfl
  simp only [List.append_assoc]
  refine ⟨?noteon, ?noteoff, ?knoba, ?knobb, rfl, ?word, ?noteoff0, ?cycle, ?cycleNoteon, ?cycleNoteoff⟩
  case noteon => exact readLine_operands hnoteon a [b] (by simp [readForm, two])
  case noteoff => exact readLine_operands hnoteoff a [] (by simp [readForm, one])
  case knoba => exact readLine_operands (m := ['k', 'n', 'o', 'b', 'a']) rfl a [] (by simp [readForm, one])
  case knobb => exact readLine_operands (m := ['k', 'n', 'o', 'b', 'b']) rfl a [] (by simp [readForm, one])
  case word => exact readLine_operands (m := ['.', 'w', 'o', 'r', 'd']) rfl a [] (by simp [readForm, one])
  case noteoff0 =>
    exact readLine_operands (m := ['n', 'o', 't', 'e', 'o', 'f', 'f', '0']) rfl a [] (by simp [readForm, one])
  case cycle =>
    exact readLine_operands (m := ['c', 'y', 'c', 'l', 'e']) rfl a [b]
      (readCycle_operands (head?_operandText_ne a [b]) two)
  case cycleNoteon =>
    exact readLine_cycle_event hnoteon a [b, c, d] (by
      simp only [readCycle, firstWord_operands hnoteon, readOperands_operandText, List.map_cons, List.map_nil])
  case cycleNoteoff =>
    exact readLine_cycle_event hnoteoff a [b, c] (by
      simp only [readCycle, firstWord_operands hnoteoff, readOperands_operandText, List.map_cons, List.map_nil])

end Sys2Proof.Proofs
end

section
/-! PROOFS. The Knob Smoother: the exact value rounded toward the sample, the distance to the sample that one smoothing
leaves, and how the distances run down to 0 (R100 to R105). -/

namespace Sys2Proof.Proofs

open Sys2Proof.Machine Sys2Proof.Laws

/-- The smoothed value, scaled by ALPHA_DEN, is the exact value and the remainder of the truncated quotient (R103). -/
theorem smooth_mul_alphaDen (cfg : Config) (s r : Int) :
    smooth cfg s r * cfg.alphaDen = cfg.alphaNum * s + (cfg.alphaDen - cfg.alphaNum) * r +
      Int.tmod ((r - s) * cfg.alphaNum) cfg.alphaDen := by
  rw [smooth, truncDiv, Int.tmod_def]
  ring

/-- The product of the rule in magnitude, for a value and a sample in the raw range (R104). -/
theorem abs_sub_mul_alphaNum_le {cfg : Config} (h : configLegal cfg = true) {s r : Int} (hs0 : 0 ≤ s)
    (hs : s ≤ cfg.adcMax) (hr0 : 0 ≤ r) (hr : r ≤ cfg.adcMax) :
    |(r - s) * cfg.alphaNum| ≤ 65535 * 65535 := by
  obtain ⟨-, hmax⟩ := legal_adcMax h
  obtain ⟨-, hlt, hden⟩ := legal_alpha h
  have hdistance : |r - s| ≤ 65535 := abs_le.2 ⟨by omega, by omega⟩
  have hnum : |(cfg.alphaNum : Int)| ≤ 65535 := abs_le.2 ⟨by omega, by omega⟩
  rw [abs_mul]
  exact mul_le_mul hdistance hnum (abs_nonneg _) (by norm_num)

/-- Settles O19: what the smoothed value has over the exact one is a remainder of ALPHA_DEN with the sign of r - s. -/
theorem smoothStaysBetweenItsArguments : Obligations.SmoothStaysBetweenItsArguments := by
  intro cfg s r h hs0 hs hr0 hr
  obtain ⟨-, hlt, -⟩ := legal_alpha h
  have hden : (0 : Int) < cfg.alphaDen := by omega
  obtain ⟨hlo, hhi⟩ := smooth_between h s r
  rw [smooth_mul_alphaDen]
  refine ⟨rfl, hlo, hhi, ?within, fun hsr => ?above, fun hrs => ?below,
    abs_sub_mul_alphaNum_le h hs0 hs hr0 hr, by norm_num⟩
  case within =>
    rw [add_sub_cancel_left]
    exact abs_lt.2 ⟨Int.lt_tmod_of_pos _ hden, Int.tmod_lt_of_pos _ hden⟩
  case above =>
    have := Int.tmod_nonneg (a := (r - s) * cfg.alphaNum) cfg.alphaDen (mul_nonneg (by omega) (by omega))
    omega
  case below =>
    have := Int.tmod_nonneg (a := (s - r) * cfg.alphaNum) cfg.alphaDen (mul_nonneg (by omega) (by omega))
    rw [← neg_sub s r, neg_mul, Int.neg_tmod]
    omega

/-- The smoothed value survives the narrowing of the register write (R104). -/
theorem regValue_smoothedKnob {cfg : Config} (h : configLegal cfg = true) {knob : Reg16}
    (hknob : knob.toNat ≤ cfg.adcMax) (raw : Nat) :
    regValue (smoothedKnob cfg knob raw) = smooth cfg (regValue knob) (conditionRaw cfg raw) := by
  obtain ⟨-, hmax⟩ := legal_adcMax h
  obtain ⟨hlo, hhi⟩ := smooth_between h (regValue knob) (conditionRaw cfg raw)
  have hraw : 0 ≤ conditionRaw cfg raw ∧ conditionRaw cfg raw ≤ cfg.adcMax := by
    unfold conditionRaw
    omega
  have hvalue : 0 ≤ regValue knob ∧ regValue knob ≤ cfg.adcMax := ⟨regValue_nonneg knob, Int.ofNat_le.2 hknob⟩
  exact regValue_narrow16 (by omega) (by omega)

/-- A word with a command's opcode and 0 in that command's must-be-zero bits is that command (R81, R84). -/
theorem decode_of_opCode {op : Op} {w : Word} (hop : opField w = opCode op) (hmid : w.extractLsb' 16 12 = 0#12)
    (hlow : lowBitsZero op w) : decode w = .ok (assembleOperands op w) := by
  obtain ⟨r, hr, rfl⟩ : ∃ r ∈ opcodeMap, r.op = op := by cases op <;> simp [opcodeMap]
  exact decode_of_selects hr ((selects_iff hr w).2 ⟨hop, hmid, hlow⟩)

/-- The words of a command whose low half is all operand: w[27:16] decides (R81, R85). -/
theorem decode_by_middle {op : Op} {w : Word} (hop : opField w = opCode op) (hlow : lowBitsZero op w) :
    (w.extractLsb' 16 12 = 0#12 → decode w = .ok (assembleOperands op w)) ∧
      (w.extractLsb' 16 12 ≠ 0#12 → ∃ e, decode w = .error e) :=
  ⟨fun hmid => decode_of_opCode hop hmid hlow, fun hmid => (decode_error_iff_of_opCode hop).2 (.inl hmid)⟩

/-- One smoothing at the defaults: alpha is 4 / 5 and the raw range is the whole of RAW (R8). -/
theorem smoothedKnob_defaults (n k : Nat) (waves : List (List Sample)) (knob : Reg16) (raw : Nat) :
    smoothedKnob (defaults n k waves) knob raw =
      narrow16 (min (raw : Int) 65535 - truncDiv ((min (raw : Int) 65535 - regValue knob) * 4) 5) := rfl

/-- Settles O17: the register holds `smooth` with no loss, and w[27:16] decides a word with OP = 3. -/
theorem knobaSmoothsItsKnob : Obligations.KnobaSmoothsItsKnob := by
  refine ⟨fun s raw h hknob => ?value, fun s n k waves hcfg hknob => ?worked,
    fun w hop => decode_by_middle (op := .knoba) hop trivial⟩
  case value =>
    refine ⟨_, rfl, rfl, regValue_smoothedKnob h hknob raw, smoothedKnob_le_adcMax h hknob raw, fun sp a => ?_⟩
    cases sp <;> rfl
  case worked =>
    have hvalue : smoothedKnob s.cfg s.knobA 65535 = 13107#16 := by
      rw [hcfg, hknob, smoothedKnob_defaults]
      decide
    rw [exec, execKnoba, hvalue]

/-- Settles O18: the register holds `smooth` with no loss, and w[27:16] decides a word with OP = 4. -/
theorem knobbSmoothsItsKnob : Obligations.KnobbSmoothsItsKnob := by
  refine ⟨fun s raw h hknob => ?value, fun s n k waves hcfg hknob => ?worked,
    fun w hop => decode_by_middle (op := .knobb) hop trivial⟩
  case value =>
    refine ⟨_, rfl, rfl, regValue_smoothedKnob h hknob raw, smoothedKnob_le_adcMax h hknob raw, fun sp a => ?_⟩
    cases sp <;> rfl
  case worked =>
    have hvalue : smoothedKnob s.cfg s.knobB 96 = 99#16 := by
      rw [hcfg, hknob, smoothedKnob_defaults]
      decide
    rw [exec, execKnobb, hvalue]

/-- The distance to the sample that one smoothing leaves of a distance d (R105); `natAbs_sub_smooth` ties it to
`smooth`. -/
def distanceLeft (cfg : Config) (d : Nat) : Nat := d * cfg.alphaNum / cfg.alphaDen

theorem natAbs_sub_smooth (cfg : Config) (s r : Int) :
    (r - smooth cfg s r).natAbs = distanceLeft cfg (r - s).natAbs := by
  rw [smooth, truncDiv, sub_sub_cancel, Int.natAbs_tdiv, Int.natAbs_mul]
  rfl

theorem distanceLeft_lt {cfg : Config} (h : configLegal cfg = true) {d : Nat} (hd : 0 < d) :
    distanceLeft cfg d < d := by
  obtain ⟨-, hlt, -⟩ := legal_alpha h
  exact Nat.div_lt_of_lt_mul (by nlinarith)

theorem distanceLeft_eq_zero {cfg : Config} {d : Nat} (h : d * cfg.alphaNum < cfg.alphaDen) :
    distanceLeft cfg d = 0 :=
  Nat.div_eq_of_lt h

/-- The distances strictly decrease, so they reach 0. -/
theorem exists_iterate_distanceLeft_eq_zero {cfg : Config} (h : configLegal cfg = true) (d : Nat) :
    ∃ n, (distanceLeft cfg)^[n] d = 0 := by
  induction d using Nat.strong_induction_on with
  | _ d ih =>
    rcases Nat.eq_zero_or_pos d with hd | hd
    · exact ⟨0, hd⟩
    · obtain ⟨n, hn⟩ := ih _ (distanceLeft_lt h hd)
      exact ⟨n + 1, hn⟩

/-- Repeated smoothings arrive at the sample exactly when the distance has run down to 0. -/
theorem iterate_smooth_eq_iff (cfg : Config) (s r : Int) (n : Nat) :
    (fun x => smooth cfg x r)^[n] s = r ↔ (distanceLeft cfg)^[n] (r - s).natAbs = 0 := by
  have hsemiconj : Function.Semiconj (fun x : Int => (r - x).natAbs) (fun x => smooth cfg x r) (distanceLeft cfg) :=
    fun x => natAbs_sub_smooth cfg x r
  rw [← hsemiconj.iterate_right n s, Int.natAbs_eq_zero, sub_eq_zero, eq_comm]

/-- The values of a knob under repeated smoothing are those of `smooth`, none changed by narrowing (R104). -/
theorem regValue_iterate_smoothedKnob {cfg : Config} (h : configLegal cfg = true) {knob : Reg16}
    (hknob : knob.toNat ≤ cfg.adcMax) (raw n : Nat) :
    regValue ((fun x => smoothedKnob cfg x raw)^[n] knob) =
      (fun x => smooth cfg x (conditionRaw cfg raw))^[n] (regValue knob) := by
  induction n generalizing knob with
  | zero => rfl
  | succ n ih =>
    rw [Function.iterate_succ_apply, ih (smoothedKnob_le_adcMax h hknob raw), regValue_smoothedKnob h hknob,
      Function.iterate_succ_apply]

/-- Repeated smoothing brings a knob to the conditioned sample (R105). -/
theorem exists_iterate_smoothedKnob_eq {cfg : Config} (h : configLegal cfg = true) {knob : Reg16}
    (hknob : knob.toNat ≤ cfg.adcMax) (raw : Nat) :
    ∃ n, ((fun x => smoothedKnob cfg x raw)^[n] knob).toNat = min raw cfg.adcMax := by
  obtain ⟨n, hn⟩ := exists_iterate_distanceLeft_eq_zero h (conditionRaw cfg raw - regValue knob).natAbs
  have hvalue := (regValue_iterate_smoothedKnob h hknob raw n).trans ((iterate_smooth_eq_iff ..).2 hn)
  unfold conditionRaw regValue at hvalue
  exact ⟨n, by omega⟩

/-- A repeated command that rewrites one register by f leaves the iterate of f there. -/
theorem execAll_replicate {i : Instr} {put : Reg16 → State} {f : Reg16 → Reg16}
    (h : ∀ x, exec i (put x) = .next (put (f x))) (n : Nat) (x : Reg16) :
    execAll (List.replicate n i) (put x) = .next (put (f^[n] x)) := by
  induction n generalizing x with
  | zero => rfl
  | succ n ih => rw [List.replicate_succ, execAll_cons (h x), ih, Function.iterate_succ_apply]

/-- Settles O20: the commands and the counts at the defaults through the distance that is left. -/
theorem repeatedKnobCommandsReachTheSample : Obligations.RepeatedKnobCommandsReachTheSample := by
  refine ⟨fun cfg s r h _ _ _ _ => ⟨fun hne => ?closer, fun hnear => ?arrives⟩,
    fun s raw h hregs => ⟨?knobA, ?knobB⟩, fun n k waves => ?counts⟩
  case closer =>
    rw [Int.abs_eq_natAbs, Int.abs_eq_natAbs, natAbs_sub_smooth]
    exact_mod_cast distanceLeft_lt h (Int.natAbs_pos.2 (sub_ne_zero.2 hne.symm))
  case arrives =>
    rw [Int.abs_eq_natAbs] at hnear
    exact (iterate_smooth_eq_iff cfg s r 1).2 (distanceLeft_eq_zero (by exact_mod_cast hnear))
  case knobA =>
    obtain ⟨n, hn⟩ := exists_iterate_smoothedKnob_eq h hregs.knobA raw
    exact ⟨n, _, execAll_replicate (put := fun x => { s with knobA := x }) (fun _ => rfl) n s.knobA, rfl, hn⟩
  case knobB =>
    obtain ⟨n, hn⟩ := exists_iterate_smoothedKnob_eq h hregs.knobB raw
    exact ⟨n, _, execAll_replicate (put := fun x => { s with knobB := x }) (fun _ => rfl) n s.knobB, rfl, hn⟩
  case counts =>
    have hleft : distanceLeft (defaults n k waves) = fun d => d * 4 / 5 := rfl
    have h46 : (fun d => d * 4 / 5)^[46] 65535 = 0 := by decide
    have h45 : (fun d => d * 4 / 5)^[45] 65535 ≠ 0 := by decide
    simp only [ne_eq, iterate_smooth_eq_iff, hleft]
    exact ⟨h46, h45, h46, h45⟩

end Sys2Proof.Proofs
end

section
/-! PROOFS. The Wavetable Mixer: the quotient behind the wave index, the weighted sum behind a mixed sample, what MIX
leaves in every space, and which rows of the table it depends on (R111 to R123, R210). -/

namespace Sys2Proof.Proofs

open Sys2Proof.Machine Sys2Proof.Laws

section

variable {cfg : Config} (h : configLegal cfg = true)
include h

/-- The quotient of R112 lies in [0, N - 1]. -/
theorem waveQuotient_range {a : Int} (h0 : 0 ≤ a) (h1 : a ≤ cfg.adcMax) :
    0 ≤ floorDiv (((cfg.numWaves : Int) - 1) * a) cfg.adcMax ∧
      floorDiv (((cfg.numWaves : Int) - 1) * a) cfg.adcMax ≤ (cfg.numWaves : Int) - 1 := by
  obtain ⟨hwaves, -⟩ := legal_numWaves h
  obtain ⟨hmax, -⟩ := legal_adcMax h
  refine floorDiv_between (by omega) ?_ (mul_le_mul_of_nonneg_left h1 (by omega))
  rw [zero_mul]
  exact mul_nonneg (by omega) h0

/-- Only KNOB_A at the top of its range brings the quotient to N - 1, where the clamp of R112 acts (R121). -/
theorem waveQuotient_eq_top_iff {a : Int} (h1 : a ≤ cfg.adcMax) :
    floorDiv (((cfg.numWaves : Int) - 1) * a) cfg.adcMax = (cfg.numWaves : Int) - 1 ↔ a = cfg.adcMax := by
  obtain ⟨hwaves, -⟩ := legal_numWaves h
  obtain ⟨hmax, -⟩ := legal_adcMax h
  have hpos : (0 : Int) < cfg.adcMax := by omega
  rw [floorDiv_eq_ediv hpos]
  constructor
  · intro htop
    by_contra hne
    have hbelow : ((cfg.numWaves : Int) - 1) * a < ((cfg.numWaves : Int) - 1) * cfg.adcMax :=
      mul_lt_mul_of_pos_left (by omega) (by omega)
    have := Int.ediv_lt_of_lt_mul hpos hbelow
    omega
  · rintro rfl
    exact Int.mul_ediv_cancel _ hpos.ne'

/-- The wave index never falls as KNOB_A rises (R123). -/
theorem mixIndex_mono {a b : Int} (hab : a ≤ b) : mixIndex cfg a ≤ mixIndex cfg b := by
  obtain ⟨hwaves, -⟩ := legal_numWaves h
  obtain ⟨hmax, -⟩ := legal_adcMax h
  have hpos : (0 : Int) < cfg.adcMax := by omega
  unfold mixIndex
  rw [floorDiv_eq_ediv hpos, floorDiv_eq_ediv hpos]
  exact min_le_min_right _ (Int.ediv_le_ediv hpos (mul_le_mul_of_nonneg_left hab (by omega)))

/-- KNOB_A = 0 gives the first index (R121). -/
theorem mixIndex_zero : mixIndex cfg 0 = 0 := by
  obtain ⟨hwaves, -⟩ := legal_numWaves h
  rw [mixIndex, mul_zero, floorDiv, Int.zero_fdiv]
  omega

/-- KNOB_A = ADC_MAX gives the last index (R121). -/
theorem mixIndex_top : mixIndex cfg cfg.adcMax = (cfg.numWaves : Int) - 2 := by
  rw [mixIndex, (waveQuotient_eq_top_iff h le_rfl).2 rfl]
  omega

end

/-- Settles O25: the index by the monotone quotient, which only the top value of KNOB_A brings to N - 1. -/
theorem waveIndexIsMonotoneAndClampedOnlyAtTheTop : Obligations.WaveIndexIsMonotoneAndClampedOnlyAtTheTop := by
  intro cfg a b h h0 hab hb
  have ha : a ≤ cfg.adcMax := hab.trans hb
  obtain ⟨hlo, hhi⟩ := waveQuotient_range h h0 ha
  obtain ⟨hindex0, hindex⟩ := mixIndex_range h h0 ha
  rw [mixNumerator_of_mem h0 ha, mixNumerator_of_mem (h0.trans hab) hb]
  exact ⟨mixIndex_mono h hab, hab, rfl, hlo, hhi, waveQuotient_eq_top_iff h ha, fun htwo => by omega⟩

/-- A sum with the weights R - m and m lies between R times any bounds of its terms (R116, R118). -/
theorem weightedSum_between {R m w0 w1 lo hi : Int} (h0 : 0 ≤ m) (h1 : m ≤ R) (hw0 : lo ≤ w0 ∧ w0 ≤ hi)
    (hw1 : lo ≤ w1 ∧ w1 ≤ hi) : lo * R ≤ (R - m) * w0 + m * w1 ∧ (R - m) * w0 + m * w1 ≤ hi * R := by
  have hR : 0 ≤ R - m := by omega
  constructor
  · calc lo * R = (R - m) * lo + m * lo := by ring
      _ ≤ _ := add_le_add (mul_le_mul_of_nonneg_left hw0.1 hR) (mul_le_mul_of_nonneg_left hw1.1 h0)
  · calc (R - m) * w0 + m * w1 ≤ (R - m) * hi + m * hi :=
          add_le_add (mul_le_mul_of_nonneg_left hw0.2 hR) (mul_le_mul_of_nonneg_left hw1.2 h0)
      _ = _ := by ring

section

variable {cfg : Config} (h : configLegal cfg = true)
include h

/-- A mixed value lies between the two values it interpolates (R118). -/
theorem interpolate_between {m : Int} (h0 : 0 ≤ m) (h1 : m ≤ cfg.adcMax) (w0 w1 : Int) :
    min w0 w1 ≤ interpolate cfg m w0 w1 ∧ interpolate cfg m w0 w1 ≤ max w0 w1 := by
  obtain ⟨hmax, -⟩ := legal_adcMax h
  obtain ⟨hlo, hhi⟩ := weightedSum_between h0 h1 ⟨min_le_left w0 w1, le_max_left w0 w1⟩
    ⟨min_le_right w0 w1, le_max_right w0 w1⟩
  exact truncDiv_between (by omega) hlo hhi

/-- The write of a mixed value narrows nothing (R118). -/
theorem toInt_narrow16_interpolate {m : Int} (h0 : 0 ≤ m) (h1 : m ≤ cfg.adcMax) (w0 w1 : Sample) :
    (narrow16 (interpolate cfg m w0.toInt w1.toInt)).toInt = interpolate cfg m w0.toInt w1.toInt := by
  obtain ⟨hlo, hhi⟩ := interpolate_between h h0 h1 w0.toInt w1.toInt
  have hw0 := sample_range w0
  have hw1 := sample_range w1
  exact toInt_narrow16 (by omega) (by omega)

/-- The sum of products of R114 fits 32 bits (R116). -/
theorem abs_weightedSum_le {m : Int} (h0 : 0 ≤ m) (h1 : m ≤ cfg.adcMax) (w0 w1 : Sample) :
    |((cfg.adcMax : Int) - m) * w0.toInt + m * w1.toInt| ≤ cfg.adcMax * 32768 ∧
      (cfg.adcMax * 32768 : Int) < 2 ^ 31 := by
  obtain ⟨-, hmax⟩ := legal_adcMax h
  have hbound (w : Sample) : -32768 ≤ w.toInt ∧ w.toInt ≤ 32768 := by
    have := sample_range w
    omega
  obtain ⟨hlo, hhi⟩ := weightedSum_between h0 h1 (hbound w0) (hbound w1)
  exact ⟨abs_le.2 ⟨by linarith, by linarith⟩, by omega⟩

/-- The product of R112 fits 32 bits (R116). -/
theorem waveProduct_lt {a : Int} (h0 : 0 ≤ a) (h1 : a ≤ cfg.adcMax) : ((cfg.numWaves : Int) - 1) * a < 2 ^ 32 := by
  obtain ⟨-, hwaves⟩ := legal_numWaves h
  obtain ⟨-, hmax⟩ := legal_adcMax h
  calc ((cfg.numWaves : Int) - 1) * a ≤ 65534 * 65535 := mul_le_mul (by omega) (by omega) h0 (by norm_num)
    _ < 2 ^ 32 := by norm_num

/-- At numerator 0 MIX copies the row of the index (R121). -/
theorem mixSample_first (index : Int) (i : Nat) :
    mixSample cfg index 0 i = waveRead cfg (index.toNat * cfg.sampleSize + i) := by
  rw [mixSample, interpolate_zero h, narrow16_toInt]

/-- At numerator R MIX copies the row behind the index (R121). -/
theorem mixSample_top (index : Int) (i : Nat) :
    mixSample cfg index cfg.adcMax i = waveRead cfg ((index.toNat + 1) * cfg.sampleSize + i) := by
  rw [mixSample, interpolate_top h, narrow16_toInt]

/-- A row of the table with all its samples (R41, R60). -/
theorem exists_row {k : Nat} (hk : k < cfg.numWaves) : ∃ row, cfg.waves[k]? = some row ∧
    ∀ i, i < cfg.sampleSize → row[i]? = some (waveRead cfg (k * cfg.sampleSize + i)) := by
  obtain ⟨row, hrow, -⟩ := waveRead_row h hk (legal_sampleSize h).1
  refine ⟨row, hrow, fun i hi => ?_⟩
  obtain ⟨row', hrow', hread⟩ := waveRead_row h hk hi
  rwa [← Option.some.inj (hrow.symm.trans hrow')] at hread

end

/-- Settles O23. -/
theorem interpolationStaysBetweenItsSamples : Obligations.InterpolationStaysBetweenItsSamples := by
  intro cfg m w0 w1 h h0 h1
  obtain ⟨hlo, hhi⟩ := interpolate_between h h0 h1 w0.toInt w1.toInt
  exact ⟨hlo, hhi, toInt_narrow16_interpolate h h0 h1 w0 w1⟩

/-- Sample i of row k stands inside the WAVES space (R60). -/
theorem flatIndex_lt (cfg : Config) {k i : Nat} (hk : k < cfg.numWaves) (hi : i < cfg.sampleSize) :
    k * cfg.sampleSize + i < spaceSize cfg .waves :=
  calc k * cfg.sampleSize + i < k * cfg.sampleSize + cfg.sampleSize := Nat.add_lt_add_left hi _
    _ = (k + 1) * cfg.sampleSize := (Nat.succ_mul k _).symm
    _ ≤ cfg.numWaves * cfg.sampleSize := Nat.mul_le_mul_right _ hk

/-- A read of WAVES at k·S + i looks at row k of the table only (R60). -/
theorem waveRead_withWaves {cfg : Config} {waves : List (List Sample)} {k i : Nat} (hi : i < cfg.sampleSize)
    (hrow : waves[k]? = cfg.waves[k]?) :
    waveRead { cfg with waves := waves } (k * cfg.sampleSize + i) = waveRead cfg (k * cfg.sampleSize + i) := by
  have hk : (k * cfg.sampleSize + i) / cfg.sampleSize = k := by
    rw [mul_comm, Nat.mul_add_div (by omega), Nat.div_eq_of_lt hi, add_zero]
  simp only [waveRead, hk, hrow]

/-- What MIX writes to LIVE[i] depends on two rows of the table only (R115). -/
theorem mixSample_withWaves {cfg : Config} {waves : List (List Sample)} {index : Int} (m : Int) {i : Nat}
    (hi : i < cfg.sampleSize) (h0 : waves[index.toNat]? = cfg.waves[index.toNat]?)
    (h1 : waves[index.toNat + 1]? = cfg.waves[index.toNat + 1]?) :
    mixSample { cfg with waves := waves } index m i = mixSample cfg index m i := by
  have hfirst := waveRead_withWaves hi h0
  have hsecond := waveRead_withWaves hi h1
  simp only [mixSample, hfirst, hsecond, interpolate]

/-- A rewrite depends on the n samples it writes only. -/
theorem writeSeq_congr (mem : Memory) {f g : Nat → Sample} {n : Nat} (h : ∀ i, i < n → f i = g i) :
    mem.writeSeq f n = mem.writeSeq g n := by
  induction n with
  | zero => rfl
  | succ n ih => rw [Memory.writeSeq, Memory.writeSeq, ih fun i hi => h i (by omega), h n (by omega)]

/-- The state MIX leaves (R111); `exec_mix` ties it to the command. -/
def mixedState (s : State) : State :=
  writeDiag (currentIndex s) (currentMix s)
    (memRewrite s .live (mixSample s.cfg (currentIndex s) (currentMix s)) s.cfg.sampleSize)

theorem exec_mix (s : State) : exec .mix s = .next (mixedState s) := rfl

/-- MIX does the same with another table that agrees on the rows index and index + 1 (R115). -/
theorem exec_mix_withWaves {s : State} {waves : List (List Sample)}
    (h0 : waves[(currentIndex s).toNat]? = s.cfg.waves[(currentIndex s).toNat]?)
    (h1 : waves[(currentIndex s).toNat + 1]? = s.cfg.waves[(currentIndex s).toNat + 1]?) :
    exec .mix { s with cfg := { s.cfg with waves := waves } } =
      .next { mixedState s with cfg := { s.cfg with waves := waves } } := by
  have hlive := writeSeq_congr s.live fun i (hi : i < s.cfg.sampleSize) =>
    mixSample_withWaves (currentMix s) hi h0 h1
  exact congrArg Host.Outcome.next
    (congrArg (fun mem => { mixedState s with cfg := { s.cfg with waves := waves }, live := mem }) hlive)

/-- A read after a MIX: LIVE[i] below S is the mixed sample, every other sample of every space as before (R115). -/
theorem memRead_mixedState {s : State} (hlive : s.live.wf = true) (sp : Space) (a : Nat) :
    memRead (mixedState s) sp a = if sp = .live ∧ a < s.cfg.sampleSize then
      mixSample s.cfg (currentIndex s) (currentMix s) a else memRead s sp a :=
  (memRead_congr rfl rfl rfl sp a).trans (memRead_memRewriteLive hlive _ _ sp a)

/-- MIX leaves every sample outside the S samples of LIVE (R115). -/
theorem memRead_mixedState_frame {s : State} (hlive : s.live.wf = true) (sp : Space) (a : Nat)
    (h : ¬ (sp = Space.live ∧ a < s.cfg.sampleSize)) : memRead (mixedState s) sp a = memRead s sp a :=
  (memRead_mixedState hlive sp a).trans (if_neg h)

/-- LIVE[i] after a MIX is the mixed sample (R111). -/
theorem memRead_mixedState_live {s : State} (hlive : s.live.wf = true) {i : Nat} (hi : i < s.cfg.sampleSize) :
    memRead (mixedState s) .live i = mixSample s.cfg (currentIndex s) (currentMix s) i :=
  (memRead_mixedState hlive .live i).trans (if_pos ⟨rfl, hi⟩)

section

variable {s : State} (h : configLegal s.cfg = true) (hr : s.RegistersInRange)

include hr in
/-- The mix numerator is in the raw range (R113). -/
theorem currentMix_range : 0 ≤ currentMix s ∧ currentMix s ≤ s.cfg.adcMax := by
  rw [currentMix_eq hr]
  exact ⟨regValue_nonneg s.knobB, Int.ofNat_le.2 hr.knobB⟩

include h hr

/-- The wave index is the number of a row with a neighbour (R112). -/
theorem currentIndex_range : 0 ≤ currentIndex s ∧ currentIndex s + 2 ≤ s.cfg.numWaves := by
  obtain ⟨h0, -⟩ := mixIndex_range h (regValue_nonneg s.knobA) (Int.ofNat_le.2 hr.knobA)
  exact ⟨h0, (regValue_narrow16_currentIndex h hr).2⟩

/-- LIVE[i] after a MIX is the interpolation of the two samples of WAVES, not narrowed (R111, R118). -/
theorem toInt_memRead_mixedState (hlive : s.live.wf = true) {i : Nat} (hi : i < s.cfg.sampleSize) :
    (memRead (mixedState s) .live i).toInt = interpolate s.cfg (currentMix s)
      (memRead s .waves ((currentIndex s).toNat * s.cfg.sampleSize + i)).toInt
      (memRead s .waves (((currentIndex s).toNat + 1) * s.cfg.sampleSize + i)).toInt := by
  obtain ⟨h0, h1⟩ := currentMix_range hr
  rw [memRead_mixedState_live hlive hi]
  exact toInt_narrow16_interpolate h h0 h1 _ _

end

/-- The words with OP = 5: MIX has no operand, so w[27:0] decides (R81, R85). -/
theorem decode_mix_word {w : Word} (hop : opField w = opCode .mix) :
    (w.extractLsb' 0 28 = 0#28 → decode w = .ok .mix) ∧
      (w.extractLsb' 0 28 ≠ 0#28 → ∃ e, decode w = .error e) := by
  have hzero : w.extractLsb' 0 28 = 0#28 ↔ w.extractLsb' 16 12 = 0#12 ∧ lowBitsZero .mix w :=
    extractLsb'_add_eq_iff w 0#32 0 16 12
  rw [ne_eq, hzero, not_and_or, decode_error_iff_of_opCode hop]
  exact ⟨fun ⟨hmid, hlow⟩ => decode_of_opCode hop hmid hlow, id⟩

/-- Settles O21: the state MIX leaves, read field by field, and w[27:0] decides a word with OP = 5. -/
theorem mixRecomputesLive : Obligations.MixRecomputesLive := by
  refine ⟨fun s h hr hlive => ?_, fun w hop => decode_mix_word hop⟩
  obtain ⟨hindex, -⟩ := regValue_narrow16_currentIndex h hr
  obtain ⟨h0, h1⟩ := currentMix_range hr
  have hmix := currentMix_eq hr
  have hclamp : currentMix s = min (max (s.knobB.toNat : Int) 0) s.cfg.adcMax := by
    unfold regValue at hmix
    omega
  have hdiagMix : regValue (narrow16 (currentMix s)) = currentMix s := by rw [hmix, narrow16_regValue]
  exact ⟨mixedState s, currentIndex s, currentMix s, rfl, hclamp, exec_mix s, rfl, hindex, hdiagMix,
    fun i hi => toInt_memRead_mixedState h hr hlive hi, memRead_mixedState_frame hlive⟩

/-- Settles O22: both rows by the range of the index, the sums by their weights, the writes by what a read after MIX
returns. -/
theorem waveReadsStayInsideTheTable : Obligations.WaveReadsStayInsideTheTable := by
  intro s h hr hlive
  obtain ⟨hindex0, hindex⟩ := currentIndex_range h hr
  obtain ⟨hmix0, hmix⟩ := currentMix_range hr
  have hfirst : (currentIndex s).toNat < s.cfg.numWaves := by omega
  have hsecond : (currentIndex s).toNat + 1 < s.cfg.numWaves := by omega
  exact ⟨hindex0, hindex,
    fun i hi => ⟨flatIndex_lt s.cfg hfirst hi, flatIndex_lt s.cfg hsecond hi, waveRead_row h hfirst hi,
      waveRead_row h hsecond hi⟩,
    abs_weightedSum_le h hmix0 hmix, waveProduct_lt h (regValue_nonneg s.knobA) (Int.ofNat_le.2 hr.knobA),
    mixedState s, exec_mix s, fun i hi => toInt_memRead_mixedState h hr hlive hi, memRead_mixedState_frame hlive,
    fun waves => exec_mix_withWaves⟩

/-- Settles O24: the index at the two ends of KNOB_A, and the copied row at the two ends of KNOB_B. -/
theorem mixEndpointsAreExact : Obligations.MixEndpointsAreExact := by
  intro s t h hr hlive hx
  rw [exec_mix] at hx
  cases hx
  obtain ⟨hindex0, hindex⟩ := currentIndex_range h hr
  have hmix := currentMix_eq hr
  refine ⟨fun ha => ?first, fun ha => ?last, fun hb => ?copiesFirst, fun hb => ?copiesSecond⟩
  case first =>
    rw [currentIndex, regValue, ha]
    exact mixIndex_zero h
  case last =>
    rw [currentIndex, regValue, ha]
    exact mixIndex_top h
  case copiesFirst =>
    obtain ⟨row, hrow, hread⟩ := exists_row h (k := (currentIndex s).toNat) (by omega)
    rw [regValue, hb] at hmix
    refine ⟨row, hrow, fun i hi => ?_⟩
    rw [hread i hi, memRead_mixedState_live hlive hi, hmix, Nat.cast_zero, mixSample_first h]
  case copiesSecond =>
    obtain ⟨row, hrow, hread⟩ := exists_row h (k := (currentIndex s).toNat + 1) (by omega)
    rw [regValue, hb] at hmix
    refine ⟨row, hrow, fun i hi => ?_⟩
    rw [hread i hi, memRead_mixedState_live hlive hi, hmix, mixSample_top h]

/-- Settles O49: during a command a read returns the sample before it or after it, and a second MIX has the same
state before and after. -/
theorem unchangedMixIsInvisibleToTheRenderer : Obligations.UnchangedMixIsInvisibleToTheRenderer := by
  intro s t a v h hr hlive hx hv
  have hagain : exec .mix t = .next t := mixAgainChangesNothing s t h hr hlive hx
  have hwf : t.live.wf = true := by
    rw [exec_mix] at hx
    cases hx
    exact writeSeq_wf hlive _ _
  exact or_self_iff.1 ((mem_readsDuring_command (b := .live) hwf hagain a v).1 hv)

end Sys2Proof.Proofs
end

section
/-! PROOFS. The Envelope Generator: segment lengths as nearest integers, the value and the range of a sample segment by
segment, and the lengths and the hold index at the defaults (R131 to R144, R211). -/

namespace Sys2Proof.Proofs

open Sys2Proof.Machine Sys2Proof.Laws

/-- An integer less than one half away from the quotient is the rounded quotient (R13). -/
theorem roundHalfEven_eq_of_near {a b q : Int} (hlo : 2 * a < 2 * (q * b) + b) (hhi : 2 * (q * b) < 2 * a + b) :
    roundHalfEven a b = q := by
  have hb : 0 < b := by omega
  obtain ⟨hlo', hhi', -⟩ := roundHalfEven_spec (a := a) hb
  have hle : roundHalfEven a b < q + 1 := lt_of_mul_lt_mul_right (by linarith) hb.le
  have hge : q < roundHalfEven a b + 1 := lt_of_mul_lt_mul_right (by linarith) hb.le
  omega

/-- A segment length is an integer nearest the linear range map (R131, R132). -/
theorem mapVelocity_nearest (out0 out127 v : Nat) :
    2 * |127 * mapVelocity out0 out127 v - (127 * (out0 : Int) + ((out127 : Int) - out0) * v)| ≤ 127 := by
  obtain ⟨hlo, hhi, -⟩ := roundHalfEven_spec (a := (out0 : Int) * 127 + ((out127 : Int) - out0) * v) (b := 127)
    (by decide)
  unfold mapVelocity
  exact (mul_le_mul_of_nonneg_left (abs_le.2 ⟨by omega, by omega⟩ : _ ≤ (63 : Int)) (by decide)).trans (by decide)

/-- A rising map gives segment lengths that do not fall with velocity (R137). -/
theorem mapVelocity_mono {out0 out127 v w : Nat} (hout : out0 ≤ out127) (hvw : v ≤ w) :
    mapVelocity out0 out127 v ≤ mapVelocity out0 out127 w := by
  have hslope : (0 : Int) ≤ (out127 : Int) - out0 := by omega
  have hstep := mul_le_mul_of_nonneg_left (Int.ofNat_le.2 hvw) hslope
  exact roundHalfEven_mono (by decide) (by omega)

/-- A falling map gives segment lengths that do not rise with velocity (R137). -/
theorem mapVelocity_anti {out0 out127 v w : Nat} (hout : out127 ≤ out0) (hvw : v ≤ w) :
    mapVelocity out0 out127 w ≤ mapVelocity out0 out127 v := by
  have hslope : (out127 : Int) - out0 ≤ 0 := by omega
  have hstep := mul_le_mul_of_nonpos_left (Int.ofNat_le.2 hvw) hslope
  exact roundHalfEven_mono (by decide) (by omega)

/-- Settles O27: each length is the rounded quotient of the linear map over 127, and check 8 keeps the filler. -/
theorem segmentLengthsAreTheNearestIntegers : Obligations.SegmentLengthsAreTheNearestIntegers := by
  intro cfg v hv
  obtain ⟨hattack, -⟩ := mapVelocity_range (out0 := cfg.atkV0) (out127 := cfg.atkV127) hv
  obtain ⟨hrelease, -⟩ := mapVelocity_range (out0 := cfg.relV0) (out127 := cfg.relV127) hv
  refine ⟨mapVelocity_nearest _ _ v, mapVelocity_nearest _ _ v, hattack, hrelease, rfl, fun h => ?_⟩
  obtain ⟨-, -, -, -, hsustain, -⟩ := segments_legal h hv
  exact hsustain

section

variable {cfg : Config} {v i : Nat}

/-- A sample of the attack segment (R134, R138). -/
theorem envValue_attack (hi : (i : Int) < attackTime cfg v) :
    envValue cfg v i = attackSample cfg (attackTime cfg v) i := if_pos hi

/-- A sample of the sustain-filler (R134, R139). -/
theorem envValue_sustain (hlo : attackTime cfg v ≤ i) (hhi : (i : Int) < attackTime cfg v + sustainTime cfg v) :
    envValue cfg v i = peak := (if_neg (not_lt.2 hlo)).trans (if_pos hhi)

/-- A sample of the release segment, counted from the segment's start (R134, R140). -/
theorem envValue_release (hsustain : 0 ≤ sustainTime cfg v) (hi : attackTime cfg v + sustainTime cfg v ≤ i) :
    envValue cfg v i = releaseSample (releaseTime cfg v) (i - attackTime cfg v - sustainTime cfg v) :=
  (if_neg (by omega)).trans (if_neg (not_lt.2 hi))

end

/-- The first release sample is PEAK (R140). -/
theorem releaseSample_first {L : Int} (hL : 2 ≤ L) : releaseSample L 0 = peak := by
  rw [releaseSample, sub_zero]
  exact Int.mul_fdiv_cancel peak (pow_pos (by omega) 2).ne'

/-- The last release sample is 0 (R140). -/
theorem releaseSample_last (L : Int) : releaseSample L (L - 1) = 0 := by
  simp [releaseSample, floorDiv]

/-- Settles O28: each segment's formula, and the release formula at the two ends of its segment. -/
theorem envelopeFollowsItsThreeSegments : Obligations.EnvelopeFollowsItsThreeSegments := by
  rintro cfg v i h hv - A U L rfl rfl rfl
  obtain ⟨hattack, -, hrelease, -, hsustain, hsum⟩ := segments_legal h hv
  refine ⟨hsum, hattack, hsustain, hrelease, envValue_attack, envValue_sustain, envValue_release hsustain,
    fun hi => ?firstRelease, fun hi => ?lastRelease⟩
  case firstRelease =>
    rw [envValue_release hsustain hi.ge, hi, add_sub_cancel_left, sub_self]
    exact releaseSample_first hrelease
  case lastRelease =>
    have hj : (i : Int) - attackTime cfg v - sustainTime cfg v = releaseTime cfg v - 1 := by omega
    rw [envValue_release hsustain (by omega), hj, releaseSample_last]

/-- The dividend of a release sample and the divisor of an attack sample with PEAK fit 47 bits (R8, R141). -/
theorem envelope_intermediates_lt {cfg : Config} (h : configLegal cfg = true) {v : Nat} (hv : v ≤ velMax) :
    32767 * (releaseTime cfg v - 1) ^ 2 < 2 ^ 47 ∧ 32767 * (cfg.floorDen * attackTime cfg v) < 2 ^ 47 := by
  obtain ⟨hattack0, hattack, hrelease0, hrelease, -⟩ := segments_legal h hv
  obtain ⟨-, hden, -⟩ := legal_floor h
  have hsquare : (releaseTime cfg v - 1) ^ 2 ≤ 65535 ^ 2 := pow_le_pow_left₀ (by omega) (by omega) 2
  have hproduct : (cfg.floorDen : Int) * attackTime cfg v ≤ 65535 * 65535 :=
    mul_le_mul (by omega) hattack hattack0 (by decide)
  omega

/-- Settles O29: the range of the samples, their narrowing, and the width of the two products. -/
theorem envelopeSamplesAreInRange : Obligations.EnvelopeSamplesAreInRange := by
  intro cfg v i h hv hi
  obtain ⟨h0, hpeak⟩ := envValue_range h hv hi
  exact ⟨h0, hpeak, toInt_envSample h hv hi, envelope_intermediates_lt h hv⟩

/-- The default range 49 over 127 never gives a tie: twice the dividend is even and the divisor is odd (R137). -/
theorem roundHalfEven_defaults_near (v : Nat) :
    2 * (49 * (v : Int)) < 2 * (roundHalfEven (49 * v) 127 * 127) + 127 ∧
      2 * (roundHalfEven (49 * v) 127 * 127) < 2 * (49 * (v : Int)) + 127 := by
  obtain ⟨hlo, hhi, -⟩ := roundHalfEven_spec (a := 49 * (v : Int)) (b := 127) (by decide)
  omega

section

variable (n k : Nat) (waves : List (List Sample)) (v : Nat)

/-- The attack length at the defaults (R137). -/
theorem attackTime_defaults : attackTime (defaults n k waves) v = 99 - roundHalfEven (49 * v) 127 := by
  obtain ⟨hlo, hhi⟩ := roundHalfEven_defaults_near v
  show roundHalfEven (((99 : Nat) : Int) * 127 + (((50 : Nat) : Int) - (99 : Nat)) * v) 127 = _
  exact roundHalfEven_eq_of_near (by omega) (by omega)

/-- The release length at the defaults (R137). -/
theorem releaseTime_defaults : releaseTime (defaults n k waves) v = 50 + roundHalfEven (49 * v) 127 := by
  obtain ⟨hlo, hhi⟩ := roundHalfEven_defaults_near v
  show roundHalfEven (((50 : Nat) : Int) * 127 + (((99 : Nat) : Int) - (50 : Nat)) * v) 127 = _
  exact roundHalfEven_eq_of_near (by omega) (by omega)

/-- The sustain-filler has one length at the defaults (R137). -/
theorem sustainTime_defaults : sustainTime (defaults n k waves) v = 51 := by
  have henv : (defaults n k waves).envLen = 200 := rfl
  rw [sustainTime, attackTime_defaults, releaseTime_defaults, henv]
  omega

end

/-- Settles O30: rounding keeps the order of the map; at the defaults both lengths come from one rounded quotient. -/
theorem attackFallsAndReleaseRisesWithVelocity : Obligations.AttackFallsAndReleaseRisesWithVelocity := by
  refine ⟨fun cfg v w hvw _ => ⟨fun h => mapVelocity_anti h hvw, fun h => mapVelocity_mono h hvw⟩,
    fun n k waves v hv => ?_⟩
  obtain ⟨hlo, hhi⟩ := roundHalfEven_defaults_near v
  rw [attackTime_defaults, releaseTime_defaults, sustainTime_defaults]
  refine ⟨by omega, rfl, rfl, rfl, by omega, fun h => by omega, fun h => by omega⟩

/-- An attack sample stays below PEAK when the floor is below it: the ramp excludes its end point (R138). -/
theorem attackSample_lt_peak {cfg : Config} (hfloor : cfg.floorNum < cfg.floorDen) {A i : Int} (h0 : 0 ≤ i)
    (hi : i < A) : attackSample cfg A i < peak := by
  have hden : 0 < (cfg.floorDen : Int) * A := mul_pos (by omega) (by omega)
  have hstep : ((cfg.floorDen : Int) - cfg.floorNum) * i < ((cfg.floorDen : Int) - cfg.floorNum) * A :=
    mul_lt_mul_of_pos_left hi (by omega)
  rw [attackSample, floorDiv_eq_ediv hden, Int.ediv_lt_iff_lt_mul hden]
  exact mul_lt_mul_of_pos_left (by linarith) (by decide)

/-- The hold index is the attack length of the reference velocity when that fits the register (R136). -/
theorem resetHoldIndex_toNat {cfg : Config} {a : Nat} (hattack : attackTime cfg cfg.holdRefVelocity = a)
    (ha : a < 65536) : (resetHoldIndex cfg).toNat = a := by
  rw [resetHoldIndex, hattack]
  exact Int.ofNat_inj.1 (regValue_narrow16 (by omega) (by omega))

/-- Settles O31: a sustain region starts at most at 99 and is 51 long; a velocity below 10 has an attack longer than
that of velocity 10, and the sample under the hold index is an attack sample. -/
theorem holdIndexLiesInEverySustainRegionAtTheDefaults :
    Obligations.HoldIndexLiesInEverySustainRegionAtTheDefaults := by
  refine fun n k waves => ⟨fun v hv => ?inside, ?reference⟩
  case inside =>
    obtain ⟨hlo, hhi⟩ := roundHalfEven_defaults_near v
    rw [resetHoldIndex_toNat (a := 99) (attackTime_defaults_zero n k waves) (by decide), attackTime_defaults,
      sustainTime_defaults]
    omega
  case reference =>
    intro cfg hcfg
    have hattack (v : Nat) : attackTime cfg v = 99 - roundHalfEven (49 * v) 127 :=
      hcfg ▸ attackTime_defaults n k waves v
    refine ⟨resetHoldIndex_toNat ?holdIndex (by decide), fun v _ hv => ?hazard⟩
    case holdIndex =>
      obtain ⟨hlo, hhi⟩ := roundHalfEven_defaults_near 10
      have href : cfg.holdRefVelocity = 10 := hcfg ▸ rfl
      rw [href, hattack]
      omega
    case hazard =>
      obtain ⟨hlo, hhi⟩ := roundHalfEven_defaults_near v
      have hlong : (95 : Int) < attackTime cfg v := by rw [hattack]; omega
      have hfloor : cfg.floorNum < cfg.floorDen := hcfg ▸ (by decide : 1 < 10)
      rw [envValue_attack hlong]
      exact ⟨hlong, attackSample_lt_peak hfloor (by decide) hlong⟩

end Sys2Proof.Proofs
end

section
/-! PROOFS. The Note State Machine: what NOTEON and NOTEOFF answer, which samples a press leaves, and NOTE_STATE after a
release (R150 to R160). -/

namespace Sys2Proof.Proofs

open Sys2Proof.Machine Sys2Proof.Laws

/-- With velocity above 0 NOTEON is the press sequence (R152). -/
theorem exec_noteon_pos {vel : Nat} (hv : 0 < vel) (note : Nat) (s : State) :
    exec (.noteon note vel) s = .next (pressSequence note vel s) := if_pos hv

/-- With velocity 0 NOTEON is the release sequence (R153). -/
theorem exec_noteon_zero (note : Nat) (s : State) : exec (.noteon note 0) s = .next (releaseSequence note s) :=
  rfl

/-- NOTEOFF is the release sequence (R154). -/
theorem exec_noteoff (note : Nat) (s : State) : exec (.noteoff note) s = .next (releaseSequence note s) := rfl

/-- A note number in range is the NOTE field that stands for it (R33, R83). -/
theorem toNat_noteOperand {note : Nat} (h : note ≤ 127) : (noteOperand note).toNat = note :=
  (BitVec.toNat_ofNat note 7).trans (Nat.mod_eq_of_lt (by omega))

/-- A NOTE field is the one that stands for its number (R33). -/
theorem noteOperand_toNat (n : Note) : noteOperand n.toNat = n := BitVec.ofNat_toNat 7 n

/-- The release of the sounding note ends in Idle (R155). -/
theorem releasedNoteState_sounding_same (n : Note) : releasedNoteState n (.sounding n) = .idle := if_pos rfl

/-- The release of another note leaves the sounding one (R155, R156). -/
theorem releasedNoteState_sounding_of_ne {n m : Note} (h : m ≠ n) :
    releasedNoteState n (.sounding m) = .sounding m :=
  if_neg fun heq => h (NoteState.sounding.inj heq)

/-- A release leaves Idle (R156). -/
theorem releasedNoteState_idle (n : Note) : releasedNoteState n .idle = .idle := if_neg nofun

/-- A release leaves every sample of every space (R155). -/
theorem memRead_releaseSequence (note : Nat) (s : State) (sp : Space) (a : Nat) :
    memRead (releaseSequence note s) sp a = memRead s sp a := memRead_congr rfl rfl rfl sp a

/-- The stream after a press: the events of R152 in one list. -/
theorem events_pressSequence (note vel : Nat) (s : State) : (pressSequence note vel s).events =
    s.events ++ [.envInstall s.holdIndex, .press (noteOperand note)] :=
  congrArg State.events (pressSequence_eq note vel s)

section

variable {s : State} (henv : s.env.wf = true) (note vel : Nat)

include henv

/-- A press keeps the canonical form of ENV (R61). -/
theorem pressSequence_env_wf : (pressSequence note vel s).env.wf = true := writeSeq_wf henv _ _

/-- A read after a press: ENV[i] below E is the envelope sample, every other sample of every space as before (R152). -/
theorem memRead_pressSequence (sp : Space) (a : Nat) : memRead (pressSequence note vel s) sp a =
    if sp = .env ∧ a < s.cfg.envLen then envSample s.cfg vel a else memRead s sp a :=
  (memRead_congr rfl rfl rfl sp a).trans (memRead_memRewriteEnv henv _ _ sp a)

/-- A press leaves every sample outside the E samples of ENV (R152). -/
theorem memRead_pressSequence_frame (sp : Space) (a : Nat) (h : ¬ (sp = Space.env ∧ a < s.cfg.envLen)) :
    memRead (pressSequence note vel s) sp a = memRead s sp a :=
  (memRead_pressSequence henv note vel sp a).trans (if_neg h)

/-- ENV[i] after a press is the value of the velocity's envelope, not narrowed (R135, R141). -/
theorem toInt_memRead_pressSequence (hc : configLegal s.cfg = true) {vel : Nat} (hv : vel ≤ velMax) {i : Nat}
    (hi : i < s.cfg.envLen) : (memRead (pressSequence note vel s) .env i).toInt = envValue s.cfg vel i := by
  rw [memRead_pressSequence henv, if_pos ⟨rfl, hi⟩, toInt_envSample hc hv hi]

end

/-- The words with OP = 2: the two runs of bits beside NOTE decide (R81, R85). -/
theorem decode_noteoff_word {w : Word} (hop : opField w = opCode .noteoff) :
    (w.extractLsb' 15 13 = 0#13 → w.extractLsb' 0 8 = 0#8 → decode w = .ok (.noteoff (noteField w))) ∧
      (w.extractLsb' 15 13 ≠ 0#13 ∨ w.extractLsb' 0 8 ≠ 0#8 → ∃ e, decode w = .error e) := by
  have habove : w.extractLsb' 15 13 = 0#13 ↔ w.extractLsb' 16 12 = 0#12 ∧ w.extractLsb' 15 1 = 0#1 :=
    extractLsb'_add_eq_iff w 0#32 15 1 12
  have hbelow : w.extractLsb' 0 8 = 0#8 ↔ w.extractLsb' 7 1 = 0#1 ∧ w.extractLsb' 0 7 = 0#7 :=
    extractLsb'_add_eq_iff w 0#32 0 7 1
  have hzero : w.extractLsb' 15 13 = 0#13 ∧ w.extractLsb' 0 8 = 0#8 ↔
      w.extractLsb' 16 12 = 0#12 ∧ lowBitsZero .noteoff w := by
    rw [habove, hbelow, and_assoc]
    rfl
  rw [← and_imp, hzero, ne_eq, ne_eq, ← not_and_or, hzero, not_and_or, decode_error_iff_of_opCode hop]
  exact ⟨fun ⟨hmid, hlow⟩ => decode_of_opCode hop hmid hlow, id⟩

/-- Settles O32: the press sequence, read field by field and sample by sample; with velocity 0 the release. -/
theorem noteonWithVelocityPresses : Obligations.NoteonWithVelocityPresses := by
  refine ⟨fun s k v hc henv hk hv hvmax => ?_, fun s k => exec_noteon_zero k s⟩
  exact ⟨pressSequence k v s, noteOperand k, toNat_noteOperand hk, exec_noteon_pos hv k s, pressSequence_eq k v s,
    fun i hi => toInt_memRead_pressSequence henv k hc hvmax hi, memRead_pressSequence_frame henv k v⟩

/-- Settles O33: both are the release sequence, which does not touch ENV. -/
theorem noteonWithVelocityZeroIsNoteoff : Obligations.NoteonWithVelocityZeroIsNoteoff :=
  fun s k => ⟨releaseSequence k s, exec_noteon_zero k s, exec_noteoff k s, releaseSequence_env k s⟩

/-- Settles O34: the release sequence with NOTE_STATE by its three cases, and the bits beside NOTE in the word. -/
theorem noteoffReleasesTheNamedNote : Obligations.NoteoffReleasesTheNamedNote := by
  refine ⟨fun s k hk => ?_, fun w hop => decode_noteoff_word hop⟩
  refine ⟨releaseSequence k s, noteOperand k, toNat_noteOperand hk, exec_noteoff k s, releaseSequence_eq k s,
    fun m hs hm => ?same, fun m hs hm => ?other, fun hs => ?idle, memRead_releaseSequence k s⟩
  case same =>
    rw [releaseSequence_noteState, hs, ← hm, noteOperand_toNat, releasedNoteState_sounding_same]
  case other =>
    have hne : m ≠ noteOperand k := fun heq => hm (heq ▸ toNat_noteOperand hk)
    rw [releaseSequence_noteState, hs, releasedNoteState_sounding_of_ne hne]
  case idle =>
    rw [releaseSequence_noteState, hs, releasedNoteState_idle]

/-- Settles O35: the two events of a press hold no release, and the old note is then not the sounding one. -/
theorem retriggerReplacesTheNoteWithoutARelease : Obligations.RetriggerReplacesTheNoteWithoutARelease := by
  intro s n k v _ hk hv _
  refine ⟨pressSequence k v s, noteOperand k, [.envInstall s.holdIndex, .press (noteOperand k)],
    toNat_noteOperand hk, exec_noteon_pos hv k s, events_pressSequence k v s, fun x => by simp, rfl, rfl,
    fun hnk => ⟨releaseSequence n.toNat (pressSequence k v s), exec_noteoff _ _, ?_, rfl⟩⟩
  have hne : noteOperand k ≠ n := fun heq => hnk (heq ▸ toNat_noteOperand hk)
  rw [releaseSequence_noteState, pressSequence_noteState, noteOperand_toNat, releasedNoteState_sounding_of_ne hne]

/-- Settles O36: two presses and the release of the second note, each command's events behind the earlier ones. -/
theorem overlappingNotesSequence : Obligations.OverlappingNotesSequence := by
  intro s hc henv _
  have hevents : (releaseSequence 64 (pressSequence 64 90 (pressSequence 60 100 s))).events =
      s.events ++ [.envInstall s.holdIndex, .press 60#7, .envInstall s.holdIndex, .press 64#7,
        .releaseThenPress 64#7] := by
    rw [releaseSequence_events, events_pressSequence, events_pressSequence, List.append_assoc, List.append_assoc]
    rfl
  refine ⟨releaseSequence 64 (pressSequence 64 90 (pressSequence 60 100 s)), ?run, hevents, ?noRelease, ?idle, rfl,
    fun i hi => ?envelope⟩
  case run =>
    rw [execAll_cons (exec_noteon_pos (by decide) 60 s), execAll_cons (exec_noteon_pos (by decide) 64 _),
      execAll_cons (exec_noteoff 64 _), execAll]
  case noRelease =>
    rw [hevents, List.drop_left]
    simp
  case idle =>
    rw [releaseSequence_noteState, pressSequence_noteState, releasedNoteState_sounding_same]
  case envelope =>
    rw [memRead_releaseSequence]
    exact toInt_memRead_pressSequence (pressSequence_env_wf henv 60 100) 64 hc (by decide) hi

end Sys2Proof.Proofs
end

section
/-! PROOFS. The control cycle: what its note event and its knob commands hand to its MIX, and the cycle whose samples
are the knobs' own values (R170 to R176). -/

namespace Sys2Proof.Proofs

open Sys2Proof.Machine Sys2Proof.Laws

/-- A MIDI event's command writes NOTE_STATE, LED, ENV and the stream at most (R152, R155). -/
theorem exec_midiCommand_frame (e : MidiEvent) (s : State) : ∃ noteState led env events,
    exec (midiCommand e) s =
      .next { s with noteState := noteState, led := led, env := env, events := events } := by
  cases e with
  | noteOn note vel =>
    rcases Nat.eq_zero_or_pos vel with rfl | hvel
    · exact ⟨_, _, _, _, exec_noteon_zero note s⟩
    · exact ⟨_, _, _, _, exec_noteon_pos hvel note s⟩
  | noteOff note => exact ⟨_, _, _, _, exec_noteoff note s⟩

/-- The state KNOBA and KNOBB leave (R101, R102); `execAll_cycleCommands_none` ties it to the commands. -/
def knobsSmoothed (rawA rawB : Nat) (s : State) : State :=
  { s with knobA := smoothedKnob s.cfg s.knobA rawA, knobB := smoothedKnob s.cfg s.knobB rawB }

/-- A cycle with no event is one MIX of the knobs it smoothed (R171). -/
theorem execAll_cycleCommands_none (rawA rawB : Nat) (s : State) :
    execAll (cycleCommands none rawA rawB) s = exec .mix (knobsSmoothed rawA rawB s) := rfl

/-- A cycle with an event is its command, then the cycle with no event (R171). -/
theorem execAll_cycleCommands_some {e : MidiEvent} {s s' : State} (h : exec (midiCommand e) s = .next s')
    (rawA rawB : Nat) :
    execAll (cycleCommands (some e) rawA rawB) s = execAll (cycleCommands none rawA rawB) s' :=
  execAll_cons h _

/-- A cycle is one MIX of the knobs it smoothed, after a note event that wrote no more than NOTE_STATE, LED, ENV and
the stream (R171, R173). -/
theorem execAll_cycleCommands (ev : Option MidiEvent) (rawA rawB : Nat) (s : State) :
    ∃ noteState led env events, execAll (cycleCommands ev rawA rawB) s = .next (mixedState (knobsSmoothed rawA rawB
      { s with noteState := noteState, led := led, env := env, events := events })) := by
  cases ev with
  | none => exact ⟨s.noteState, s.led, s.env, s.events, rfl⟩
  | some e =>
    obtain ⟨noteState, led, env, events, hexec⟩ := exec_midiCommand_frame e s
    exact ⟨noteState, led, env, events, execAll_cycleCommands_some hexec rawA rawB⟩

/-- Smoothing keeps the registers in range (R32, R104). -/
theorem knobsSmoothed_registersInRange {s : State} (hr : s.RegistersInRange) (h : configLegal s.cfg = true)
    (rawA rawB : Nat) : (knobsSmoothed rawA rawB s).RegistersInRange :=
  { hr with
    knobA := smoothedKnob_le_adcMax h hr.knobA rawA
    knobB := smoothedKnob_le_adcMax h hr.knobB rawB }

/-- The diagnostic snapshot of a MIX is the index of KNOB_A, and KNOB_B, both with no loss (R112, R113, R117). -/
theorem mixedState_diag {s : State} (hr : s.RegistersInRange) (h : configLegal s.cfg = true) :
    ((mixedState s).diagIndex.toNat : Int) = mixIndex s.cfg s.knobA.toNat ∧
      (mixedState s).diagMix = s.knobB := by
  obtain ⟨hindex, -⟩ := regValue_narrow16_currentIndex h hr
  refine ⟨hindex, ?_⟩
  rw [mixedState, writeDiag_diagMix, currentMix_eq hr, narrow16_regValue]

/-- LIVE[i] after a MIX, by the values of the two knobs (R111, R112, R113). -/
theorem memRead_mixedState_knobs {s : State} (hr : s.RegistersInRange) (hlive : s.live.wf = true) {i : Nat}
    (hi : i < s.cfg.sampleSize) :
    memRead (mixedState s) .live i = mixSample s.cfg (mixIndex s.cfg s.knobA.toNat) s.knobB.toNat i := by
  rw [memRead_mixedState_live hlive hi, currentMix_eq hr]
  rfl

/-- Settles O44: the cycle's MIX starts from the knobs the cycle smoothed, and the two knob commands write different
registers. -/
theorem cycleMixesTheKnobsItSmoothed : Obligations.CycleMixesTheKnobsItSmoothed := by
  intro s ev rawA rawB h hr hlive
  obtain ⟨noteState, led, env, events, hrun⟩ := execAll_cycleCommands ev rawA rawB s
  have hafterEvent :
      State.RegistersInRange { s with noteState := noteState, led := led, env := env, events := events } :=
    { hr with }
  have hsmoothed := knobsSmoothed_registersInRange hafterEvent h rawA rawB
  obtain ⟨hindex, hmix⟩ := mixedState_diag hsmoothed h
  refine ⟨_, hrun, rfl, rfl, hindex, congrArg (fun r => (r.toNat : Int)) hmix,
    fun i hi => memRead_mixedState_knobs hsmoothed hlive hi, rfl⟩

/-- A knob smoothed toward its own value keeps it (R105). -/
theorem smoothedKnob_self {cfg : Config} {knob : Reg16} (hknob : knob.toNat ≤ cfg.adcMax) :
    smoothedKnob cfg knob knob.toNat = knob := by
  have hraw : conditionRaw cfg knob.toNat = regValue knob := min_eq_left (Int.ofNat_le.2 hknob)
  have hsmooth : smooth cfg (regValue knob) (regValue knob) = regValue knob := by simp [smooth, truncDiv]
  rw [smoothedKnob, hraw, hsmooth, narrow16_regValue]

/-- Knob commands whose samples are the knobs' own values change nothing (R105, R176). -/
theorem knobsSmoothed_self {s : State} (hA : s.knobA.toNat ≤ s.cfg.adcMax) (hB : s.knobB.toNat ≤ s.cfg.adcMax) :
    knobsSmoothed s.knobA.toNat s.knobB.toNat s = s := by
  rw [knobsSmoothed, smoothedKnob_self hA, smoothedKnob_self hB]

/-- Settles O45: the smoothing leaves the state, and a MIX after a MIX leaves it too. -/
theorem unchangedCycleIsIdempotent : Obligations.UnchangedCycleIsIdempotent := by
  intro s t h hr hlive hx
  have hagain : exec .mix t = .next t := mixAgainChangesNothing s t h hr hlive hx
  obtain ⟨hA, hB⟩ : t.knobA.toNat ≤ t.cfg.adcMax ∧ t.knobB.toNat ≤ t.cfg.adcMax := by
    rw [exec_mix] at hx
    cases hx
    exact ⟨hr.knobA, hr.knobB⟩
  rw [execAll_cycleCommands_none, knobsSmoothed_self hA hB, hagain]

end Sys2Proof.Proofs
end

section
/-! PROOFS. The exceptions: every command completes, an illegal word is discarded, a reset abandons the command it
cuts short, and reads before a reset completes are unspecified (R180 to R183, R206, R208). -/

namespace Sys2Proof.Proofs

open Sys2Proof.Machine Sys2Proof.Laws

/-- Settles O37: the next state is the one the command's actions leave. -/
theorem everyCommandCompletes : Obligations.EveryCommandCompletes :=
  fun i s => ⟨_, exec_eq_applyActions i s⟩

/-- A run of one step is that step, whatever it answers. -/
theorem run_one (M : Host.Core) (s : M.State) : M.run 1 s = M.step s := by
  rw [Host.Core.run]
  cases M.step s <;> rfl

/-- Settles O7: the first step discards the illegal word, and it leaves the block running for the word behind it. -/
theorem illegalWordOnlySetsCmdErr : Obligations.IllegalWordOnlySetsCmdErr := by
  intro s w rest e hrun hin hd
  have hstep : step s = .next { s with inputs := rest, cmdErr := true } :=
    (step_command hrun hin).trans (runWord_of_illegal hd _)
  refine ⟨hstep, fun w' rest' i hrest hd' => ?_⟩
  have hnext : step { s with inputs := rest, cmdErr := true } = exec i { s with inputs := rest', cmdErr := true } :=
    stepRunsTheDecodedCommand _ w' rest' i hrun hrest hd'
  exact (run_succ (M := Sys2Proof.core) hstep 1).trans ((run_one Sys2Proof.core _).trans hnext)

/-- A reset during the command of a word is served with the entry of both gone from the queue (R206). -/
theorem step_resetDuring {s : State} {w : Word} {cfg : Config} {rest : List HostInput}
    (hin : s.inputs = .resetDuring w cfg :: rest) :
    step s = .next (resetDuringWord w cfg { s with inputs := rest }) := by
  simp [step, serveInput, hin, takeInput]

/-- The reset procedure takes its configuration and leaves the queue, whatever the checks say (R200). -/
theorem resetBlock_frame (cfg : Config) (s : State) :
    (resetBlock cfg s).cfg = cfg ∧ (resetBlock cfg s).inputs = s.inputs := by
  cases hc : configLegal cfg with
  | true => simp [resetBlock_legal hc]
  | false => simp [resetBlock_illegal hc]

/-- A reset during a command takes its configuration and leaves the queue, on a halted block too (R206). -/
theorem resetDuringWord_frame (w : Word) (cfg : Config) (s : State) :
    (resetDuringWord w cfg s).cfg = cfg ∧ (resetDuringWord w cfg s).inputs = s.inputs := by
  cases hrun : s.cfgErr with
  | true =>
    rw [resetDuringWord_halted hrun]
    exact resetBlock_frame cfg s
  | false =>
    obtain ⟨hcfg, hinputs⟩ := resetBlock_frame cfg (abandonWord w s)
    obtain ⟨-, -, -, habandoned, -⟩ := abandonWord_frame w s
    rw [resetDuringWord_running hrun]
    exact ⟨hcfg, hinputs.trans habandoned⟩

/-- A legal reset during a command forgets all but the queue and the count of free values (R206). -/
theorem resetDuringWord_legal {cfg : Config} (hc : configLegal cfg = true) (w : Word) (s : State) :
    resetDuringWord w cfg s = State.afterReset cfg s.inputs (resetDuringWord w cfg s).freeCount := by
  obtain ⟨-, hinputs⟩ := resetDuringWord_frame w cfg s
  rw [← hinputs, resetDuringWord, resetBlock_legal hc]
  rfl

/-- The actions of a word do not depend on what is queued behind it. -/
theorem wordActions_withInputs (s : State) (w : Word) (rest : List HostInput) :
    wordActions { s with inputs := rest } w = wordActions s w := by
  unfold wordActions
  cases decode w with
  | ok i => cases i <;> rfl
  | error e => rfl

/-- The stream of an abandoned command begins with the stream before it (R206). -/
theorem events_prefix_abandonWord (w : Word) (s : State) : s.events <+: (abandonWord w s).events := by
  rw [abandonWord_events]
  exact List.prefix_append _ _

/-- The stream of an abandoned command is a beginning of the completed command's, whatever is queued (R206). -/
theorem abandonWord_events_prefix {w : Word} {s u : State} (hu : runWord w s = .next u) (rest : List HostInput) :
    (abandonWord w { s with inputs := rest }).events <+: u.events := by
  rw [runWord_eq_applyActions] at hu
  cases hu
  rw [abandonWord_events, wordActions_withInputs, applyActions_events]
  exact (List.prefix_append_right_inj _).2 (List.take_prefix _ _)

/-- Settles O13: a legal reset by what it forgets, a failed one by the stream it keeps, which on a running block is
the abandoned command's. -/
theorem resetDuringACommandAbandonsIt : Obligations.ResetDuringACommandAbandonsIt := by
  intro s w cfg rest hin
  obtain ⟨hcfg, hinputs⟩ := resetDuringWord_frame w cfg { s with inputs := rest }
  refine ⟨_, step_resetDuring hin, hinputs, hcfg, fun hc => ?legal, fun hc =>
    ⟨(resetBlock_cfgErr cfg _).2 hc, resetBlock_led cfg _, fun hrun => ?running, fun hhalt => ?halted⟩⟩
  case legal =>
    have hforgets := resetDuringWord_legal hc w { s with inputs := rest }
    exact ⟨hforgets, by rw [hforgets, afterReset_events]⟩
  case running =>
    rw [resetDuringWord_running (s := { s with inputs := rest }) hrun, resetBlock_illegal hc, afterHalt_events]
    exact ⟨events_prefix_abandonWord w { s with inputs := rest }, fun u hu => abandonWord_events_prefix hu rest⟩
  case halted =>
    rw [resetDuringWord_halted (s := { s with inputs := rest }) hhalt, resetBlock_illegal hc, afterHalt_events]

/-- Before a reset completes, and on a halted block, the admitted values are all those of 16 bits (R181, R208). -/
theorem readsServing_unspecified {s : State} {input : HostInput}
    (h : input.resetConfig ≠ none ∨ s.cfgErr = true) (n : Nat) (b : Buffer) (a : Nat) :
    readsServing s input n b a = anySample ∧ holdReadsServing s input = anySample := by
  cases input with
  | command w =>
    have hhalt : s.cfgErr = true := h.resolve_left (· rfl)
    exact ⟨if_pos hhalt, if_pos hhalt⟩
  | reset cfg => exact ⟨rfl, rfl⟩
  | resetDuring w cfg => exact ⟨rfl, rfl⟩

/-- A running block runs the word it is offered, so the admitted values are those of the word's actions (R64). -/
theorem readsServing_command {s : State} (hrun : s.cfgErr = false) (w : Word) (n : Nat) (b : Buffer) (a : Nat) :
    readsServing s (.command w) n b a = readsDuring s (wordActions s w) n b a ∧
      holdReadsServing s (.command w) = [s.holdIndex] := by
  simp [readsServing, holdReadsServing, hrun, rendererHoldIndex]

/-- A halted block at rest admits every value (R181, R208). -/
theorem readsAtRest_halted {s : State} (hhalt : s.cfgErr = true) (b : Buffer) (a : Nat) :
    readsAtRest s b a = anySample := if_pos hhalt

/-- A running block at rest admits the sample alone (R63). -/
theorem readsAtRest_running {s : State} (hrun : s.cfgErr = false) (b : Buffer) (a : Nat) :
    readsAtRest s b a = [rendererRead s b a] := by simp [readsAtRest, hrun]

/-- Settles O50: which list of admitted values each read has, and that every value is in `anySample`. -/
theorem readsBeforeResetCompletesAreUnspecified : Obligations.ReadsBeforeResetCompletesAreUnspecified := by
  refine ⟨fun s input n b a v h => ?reset, fun s b a v => ⟨fun hhalt => ?halted, fun hrun => ?running⟩,
    fun s w n b a hrun => readsServing_command hrun w n b a⟩
  case reset =>
    obtain ⟨hread, hhold⟩ := readsServing_unspecified h n b a
    rw [hread, hhold]
    exact ⟨mem_anySample v, mem_anySample v⟩
  case halted =>
    rw [readsAtRest_halted hhalt]
    exact mem_anySample v
  case running => rw [readsAtRest_running hrun, List.mem_singleton]

end Sys2Proof.Proofs
end

section
/-! PROOFS. Reset: which configurations are legal, what a legal reset leaves in the registers and in both buffers, and
the invariant after any reset (R200 to R207). -/

namespace Sys2Proof.Proofs

open Sys2Proof.Machine Sys2Proof.Laws

section

variable (cfg : Config)

/-- A configuration is legal when it passes the ten checks (R207). -/
theorem configLegal_iff_checks : configLegal cfg = true ↔
    checkAdcMax cfg = true ∧ checkAlpha cfg = true ∧ checkNumWaves cfg = true ∧ checkSampleSize cfg = true ∧
      checkWaves cfg = true ∧ checkLengths cfg = true ∧ checkFloor cfg = true ∧ checkSustain cfg = true ∧
      checkRelease cfg = true ∧ checkHold cfg = true := by
  simp only [configLegal, Bool.and_eq_true, and_assoc]

theorem checkAdcMax_iff : checkAdcMax cfg = true ↔ 1 ≤ cfg.adcMax ∧ cfg.adcMax ≤ 65535 := by
  simp [checkAdcMax]

theorem checkAlpha_iff : checkAlpha cfg = true ↔
    0 < cfg.alphaNum ∧ cfg.alphaNum < cfg.alphaDen ∧ cfg.alphaDen ≤ 65535 := by
  simp [checkAlpha, and_assoc]

theorem checkNumWaves_iff : checkNumWaves cfg = true ↔ 2 ≤ cfg.numWaves ∧ cfg.numWaves ≤ 65535 := by
  simp [checkNumWaves]

theorem checkSampleSize_iff : checkSampleSize cfg = true ↔ 1 ≤ cfg.sampleSize ∧ cfg.sampleSize ≤ 65535 := by
  simp [checkSampleSize]

theorem checkWaves_iff : checkWaves cfg = true ↔
    cfg.waves.length = cfg.numWaves ∧ ∀ row ∈ cfg.waves, row.length = cfg.sampleSize := by
  simp [checkWaves]

theorem checkLengths_iff : checkLengths cfg = true ↔
    1 ≤ cfg.envLen ∧ cfg.envLen ≤ 65535 ∧ cfg.atkV0 ≤ 65535 ∧ cfg.atkV127 ≤ 65535 ∧ cfg.relV0 ≤ 65535 ∧
      cfg.relV127 ≤ 65535 := by
  simp [checkLengths, and_assoc]

theorem checkFloor_iff : checkFloor cfg = true ↔
    1 ≤ cfg.floorDen ∧ cfg.floorDen ≤ 65535 ∧ cfg.floorNum ≤ cfg.floorDen := by
  simp [checkFloor, and_assoc]

theorem checkSustain_iff : checkSustain cfg = true ↔
    ∀ v, v ≤ 127 → attackTime cfg v + releaseTime cfg v ≤ (cfg.envLen : Int) := by
  simp [checkSustain, allVelocities_iff, velMax]

theorem checkRelease_iff : checkRelease cfg = true ↔ ∀ v, v ≤ 127 → 2 ≤ releaseTime cfg v := by
  simp [checkRelease, allVelocities_iff, velMax]

theorem checkHold_iff : checkHold cfg = true ↔
    cfg.holdRefVelocity ≤ 127 ∧ attackTime cfg cfg.holdRefVelocity < (cfg.envLen : Int) := by
  simp only [checkHold, Bool.and_eq_true, decide_eq_true_eq]
  exact Iff.rfl

end

/-- At the defaults the checks of the table are the only ones that can fail (R207). -/
theorem configLegal_defaults {n k : Nat} {waves : List (List Sample)} (hn : 2 ≤ n ∧ n ≤ 65535)
    (hk : 1 ≤ k ∧ k ≤ 65535) (hwaves : waves.length = n ∧ ∀ row ∈ waves, row.length = k) :
    configLegal (defaults n k waves) = true :=
  (configLegal_iff_checks _).2 ⟨rfl, rfl, (checkNumWaves_iff _).2 hn, (checkSampleSize_iff _).2 hk,
    (checkWaves_iff _).2 hwaves, rfl, rfl, defaults_velocity_checks n k waves⟩

/-- Settles O16: each check by its condition; at the defaults both lengths come from one rounded quotient, which
cancels in their sum and is not negative. -/
theorem configurationIsLegalExactlyWhenTheChecksHold : Obligations.ConfigurationIsLegalExactlyWhenTheChecksHold := by
  refine ⟨fun cfg => ?checks, fun n k waves hn hn' hk hk' hlength hrows =>
    configLegal_defaults ⟨hn, hn'⟩ ⟨hk, hk'⟩ ⟨hlength, hrows⟩, fun n k waves v _ => ?defaults⟩
  case checks =>
    simp only [configLegal_iff_checks, checkAdcMax_iff, checkAlpha_iff, checkNumWaves_iff, checkSampleSize_iff,
      checkWaves_iff, checkLengths_iff, checkFloor_iff, checkSustain_iff, checkRelease_iff, checkHold_iff]
  case defaults =>
    obtain ⟨hlo, -⟩ := roundHalfEven_defaults_near v
    rw [attackTime_defaults n k waves v, releaseTime_defaults]
    exact ⟨by omega, by omega, attackTime_defaults_zero n k waves⟩

/-- Settles O14: STATUS and HOLD_INDEX by their values after a legal reset, the other fields by definition. -/
theorem legalResetLeavesTheResetValues : Obligations.LegalResetLeavesTheResetValues := by
  refine fun s cfg => ⟨resetBlock_cfgErr cfg s, fun h => ?_⟩
  have hstatus : readPort (State.afterReset cfg s.inputs s.freeCount) 0#8 = 0x0000#16 :=
    statusWord_afterReset cfg s.inputs s.freeCount
  exact ⟨_, (resetBlock_legal h s).symm, rfl, rfl, rfl, rfl, rfl, rfl, rfl, rfl, rfl, regValue_resetHoldIndex h,
    hstatus, rfl⟩

section

variable (cfg : Config) (inputs : List HostInput) (k : Nat)

/-- LIVE after a legal reset is row 0 of the table (R202). -/
theorem memRead_afterReset_live {i : Nat} (hi : i < cfg.sampleSize) :
    memRead (State.afterReset cfg inputs k) .live i = waveRead cfg i :=
  (read_writeSeq (m := []) rfl _ _ i).trans (if_pos hi)

/-- ENV after a legal reset is the reference velocity's envelope (R203). -/
theorem memRead_afterReset_env {i : Nat} (hi : i < cfg.envLen) :
    memRead (State.afterReset cfg inputs k) .env i = envSample cfg cfg.holdRefVelocity i :=
  (read_writeSeq (m := []) rfl _ _ i).trans (if_pos hi)

/-- KNOB_A = 0, as reset leaves it, gives the wave index 0 (R112, R121). -/
theorem currentIndex_afterReset (h : configLegal cfg = true) : currentIndex (State.afterReset cfg inputs k) = 0 :=
  mixIndex_zero h

/-- KNOB_B = 0, as reset leaves it, gives the mix numerator 0 (R113, R121). -/
theorem currentMix_afterReset : currentMix (State.afterReset cfg inputs k) = 0 :=
  mixNumerator_of_mem le_rfl (Int.natCast_nonneg _)

end

/-- A MIX whose samples and diagnostic snapshot the state holds already changes nothing (R120). -/
theorem exec_mix_self {s : State} (hlive : s.live.wf = true)
    (hsamples : ∀ i, i < s.cfg.sampleSize → s.live.read i = mixSample s.cfg (currentIndex s) (currentMix s) i)
    (hdiag : writeDiag (currentIndex s) (currentMix s) s = s) : exec .mix s = .next s := by
  rw [exec_mix, mixedState, memRewriteLive_self hlive hsamples, hdiag]

/-- A MIX right after a legal reset writes the samples and the snapshot that reset has written (R121, R202). -/
theorem exec_mix_afterReset {cfg : Config} (h : configLegal cfg = true) (inputs : List HostInput) (k : Nat) :
    exec .mix (State.afterReset cfg inputs k) = .next (State.afterReset cfg inputs k) := by
  have hindex := currentIndex_afterReset cfg inputs k h
  have hmix := currentMix_afterReset cfg inputs k
  refine exec_mix_self (writeSeq_wf rfl _ _) (fun i hi => ?samples) ?snapshot
  case samples =>
    rw [hindex, hmix, afterReset_cfg, mixSample_zero h]
    exact memRead_afterReset_live cfg inputs k hi
  case snapshot =>
    rw [hindex, hmix]
    rfl

/-- Settles O15: row 0 and the reference envelope sample by sample, the MIX of the reset knobs, and the segment
lengths at the defaults. -/
theorem legalResetLoadsBothBuffers : Obligations.LegalResetLoadsBothBuffers := by
  refine ⟨fun cfg s h => ?loads, fun n k waves => ⟨attackTime_defaults_zero n k waves, sustainTime_defaults n k waves 0,
    (releaseTime_defaults n k waves 0).trans (by decide)⟩⟩
  rw [resetBlock_legal h]
  refine ⟨fun i hi => ?live, exec_mix_afterReset h _ _, fun i hi => ?env, regValue_resetHoldIndex h⟩
  case live =>
    obtain ⟨hwaves, -⟩ := legal_numWaves h
    obtain ⟨row, hrow, hread⟩ := exists_row h (k := 0) (by omega)
    have hsample := hread i hi
    rw [zero_mul, zero_add] at hsample
    rw [memRead_afterReset_live cfg _ _ hi]
    exact ⟨row, hrow, hsample⟩
  case env =>
    rw [memRead_afterReset_env cfg _ _ hi]
    exact toInt_envSample h (legal_hold h).1 hi

/-- Settles O41: the platform's configuration is legal, and a legal reset establishes the invariant. -/
theorem resetStateMeetsTheInvariant : Obligations.ResetStateMeetsTheInvariant :=
  inv_of_runningInv rfl (afterReset_runningInv platform_legal [] 0)

/-- Settles O42: the invariant by the outcome of the checks; a legal reset keeps the queue and the count only. -/
theorem everyResetEstablishesTheInvariant : Obligations.EveryResetEstablishesTheInvariant := by
  refine ⟨resetBlock_inv, fun cfg s s' h hinputs hcount => ?_⟩
  rw [resetBlock_legal h, resetBlock_legal h, hinputs, hcount]

end Sys2Proof.Proofs
end

section
/-! PROOFS. The step by its input where no command runs: the idle step, the two resets, and the halt, which only a
legal reset leaves (R162, R181, R195, R206). -/

namespace Sys2Proof.Proofs

open Sys2Proof.Machine Sys2Proof.Laws

/-- A reset between commands is served with its entry gone from the queue, halted or not (R206). -/
theorem step_reset {s : State} {cfg : Config} {rest : List HostInput} (hin : s.inputs = .reset cfg :: rest) :
    step s = .next (resetBlock cfg { s with inputs := rest }) := by
  simp [step, serveInput, hin, takeInput]

/-- A halted block has no step but a reset: neither a word nor an empty queue gives it one (R181). -/
theorem step_halted {s : State} (hhalt : s.cfgErr = true) (hr : nextReset s = none) :
    step s = .fault .halted := by
  match hin : s.inputs with
  | [] => simp [step, serveInput, hin, hhalt]
  | .command w :: rest => simp [step, serveInput, hin, hhalt]
  | .reset cfg :: rest => cases hr.symm.trans (nextReset_eq_some.2 ⟨rest, .inl hin⟩)
  | .resetDuring w cfg :: rest => cases hr.symm.trans (nextReset_eq_some.2 ⟨rest, .inr ⟨w, hin⟩⟩)

/-- A step that clears CFG_ERR serves a reset with a legal configuration (R36, R181). -/
theorem legal_reset_of_step_leaves_halt {s t : State} (hhalt : s.cfgErr = true) (h : step s = .next t)
    (hrun : t.cfgErr = false) : ∃ cfg, nextReset s = some cfg ∧ configLegal cfg = true := by
  obtain ⟨hkept, hreset⟩ := errorBitsChangeOnlyAsTheirRuleSays s t h
  cases hr : nextReset s with
  | none =>
    obtain ⟨hcfgErr, -⟩ := hkept hr
    simp [hcfgErr, hhalt] at hrun
  | some cfg =>
    obtain ⟨hiff, -⟩ := hreset cfg hr
    exact ⟨cfg, rfl, by simpa [hrun] using hiff⟩

/-- Settles O8: what a failed reset leaves, the fault of a halted block, and the one step out of the halt. -/
theorem failedChecksHaltTheBlock : Obligations.FailedChecksHaltTheBlock := by
  refine ⟨fun cfg s hc => ?failed, fun _ => step_halted, fun _ _ => legal_reset_of_step_leaves_halt⟩
  have hcfgErr : (resetBlock cfg s).cfgErr = true := (resetBlock_cfgErr cfg s).2 hc
  refine ⟨hcfgErr, resetBlock_led cfg s, ?events, ?status⟩
  case events => rw [resetBlock_illegal hc, afterHalt_events]
  case status =>
    rw [readPort_zero]
    exact (statusWord_getLsbD _ (i := 3) (by omega)).trans hcfgErr

/-- Settles O11: with nothing queued, a running block is served no input. -/
theorem idleBlockHoldsItsState : Obligations.IdleBlockHoldsItsState := by
  intro s hrun hin
  simp [step, serveInput, hin, hrun]

/-- Settles O12: a reset leaves the queue behind it; one during a command abandons the command of a running block. -/
theorem resetInputRunsTheResetProcedure : Obligations.ResetInputRunsTheResetProcedure := by
  refine ⟨fun s cfg rest hin => ?between, fun s w cfg rest hin => ⟨fun hrun => ?running, fun hhalt => ?halted⟩⟩
  case between =>
    obtain ⟨-, hinputs⟩ := resetBlock_frame cfg { s with inputs := rest }
    exact ⟨step_reset hin, hinputs⟩
  case running => rw [step_resetDuring hin, resetDuringWord_running (s := { s with inputs := rest }) hrun]
  case halted => rw [step_resetDuring hin, resetDuringWord_halted (s := { s with inputs := rest }) hhalt]

end Sys2Proof.Proofs
end
